-- ==== Sys2Proof/Word.lean ====
section
/-! DEFINITION. The engine's words: 8-bit bytes, 32-bit words and the eight-word state of SHA-256 (spec 00_scope.md R7, R8, R14). -/

namespace Sys2Proof

/-- A byte, the unit of addressing (R8, R60). -/
abbrev Byte := BitVec 8

/-- A word, an unsigned 32-bit value (R7). -/
abbrev Word := BitVec 32

/-- Eight words: a chaining value `H[0..7]` (R14, R20), and also the eight working variables
`a, b, c, d, e, f, g, h` of a round, which pair with them in this order (R21, R161). -/
structure HashState where
  a : Word
  b : Word
  c : Word
  d : Word
  e : Word
  f : Word
  g : Word
  h : Word
deriving DecidableEq, Repr

/-- The eight words in order, word 0 first. -/
def HashState.toList (s : HashState) : List Word := [s.a, s.b, s.c, s.d, s.e, s.f, s.g, s.h]

end Sys2Proof
end

