-- ==== Sys2Proof/Config.lean ====
section
/-! DEFINITION. What an implementation fixes: the model arguments of spec 00_scope.md R6, as plain data, and the one
uninterpreted function SUMMARY. -/

namespace Sys2Proof

/-- The name of a capability flag; a capability set `CAP` is the list of the flags that are true (R6, R37). -/
abbrev Capability := String

/-- A predicate on `CAP`, the `requires` of a backend record (R6). Every Boolean function of finitely many flags is one
of these (log 17). -/
inductive CapReq where
  | always
  | has (c : Capability)
  | not (r : CapReq)
  | and (r₁ r₂ : CapReq)
  | or (r₁ r₂ : CapReq)
deriving DecidableEq, Repr

/-- The slots of the Active Backend Table a backend may fill (R6, R33). -/
inductive Slot where
  | core
  | d64x1
  | d64x2
  | d64x4
  | d64x8
deriving DecidableEq, Repr

/-- A backend record `{id, slot, requires, rank}`; a backend may fill several slots (R6). -/
structure Candidate where
  id       : String
  slots    : List Slot
  requires : CapReq
  rank     : Nat
deriving DecidableEq, Repr

/-- The Active Backend Table: five slots, each empty or the id of a candidate (R33). -/
structure BackendTable where
  core  : Option String
  d64x1 : Option String
  d64x2 : Option String
  d64x4 : Option String
  d64x8 : Option String
deriving DecidableEq, Repr

/-- All five slots empty. -/
def BackendTable.empty : BackendTable := ⟨none, none, none, none, none⟩

/-- A range of addresses: `size` bytes from `base` on. -/
structure Region where
  base : Nat
  size : Nat
deriving DecidableEq, Repr

/-- The model arguments of R6 (but SUMMARY, which is `Config.summary`). `unmapped` lists the ranges of the data space
where `Mapped` is false (log 3). -/
structure Params where
  aw           : Nat
  unmapped     : List Region
  cap          : List Capability
  candidates   : List Candidate
  selftestText : List Byte
  selftestOk   : Bool
  ninst        : Nat
deriving DecidableEq, Repr

/-- What R6 requires of its arguments. -/
structure Params.Wf (p : Params) : Prop where
  aw_pos : 0 < p.aw
  ninst_pos : 0 < p.ninst
  text_len : p.selftestText.length = 640
  core_candidate : ∃ c ∈ p.candidates, Slot.core ∈ c.slots ∧ c.requires = .always
  d64x1_candidate : ∃ c ∈ p.candidates, Slot.d64x1 ∈ c.slots ∧ c.requires = .always

/-- The default self-test text: byte `i` is `i mod 256` (R6, D23). -/
def Params.defaultText : List Byte := (List.range 640).map (BitVec.ofNat 8)

/-- The defaults of R6. The spec gives none for `CAP` and `CANDIDATES` (log 2, DESIGN CHOICE): no flag is set, and one
portable backend fills every slot. -/
def Params.default : Params where
  aw := 64
  unmapped := []
  cap := []
  candidates := [⟨"portable", [.core, .d64x1, .d64x2, .d64x4, .d64x8], .always, 0⟩]
  selftestText := Params.defaultText
  selftestOk := true
  ninst := 1

/-- SUMMARY: a function of the Active Backend Table alone, uninterpreted (R204, U10; log 10). -/
opaque Config.summary : BackendTable → String

end Sys2Proof
end

