-- ==== Sys2Proof/Syntax.lean ====
section
/-! DEFINITION. What the host can give the engine: the ten commands (spec 30_encoding.md R92), the fields of a command
word (R91), and the actions of a run's script (R98). -/

namespace Sys2Proof

/-- The ten commands, in the order of the opcode table. None has an operand in its word (R94). -/
inductive Instr where
  | transform
  | d64
  | d64Way2
  | d64Way4
  | d64Way8
  | dispatch
  | hReset
  | hWrite
  | hFinalize
  | sha256d64
deriving DecidableEq, Repr

/-- The three fields of format C (R91). -/
structure CommandFields where
  rsv  : BitVec 22
  logw : BitVec 2
  opc  : BitVec 8
deriving DecidableEq, Repr

/-- One host action, one line of a script (R98). A register action names the host agent that makes it, the engine
instance it is made on and the register number of R36; an agent number matters only to the rule that two agents do not
interleave their writes on one instance (R72, R296, U5). -/
inductive HostAction where
  /-- `wr REG, v`; a write of register 15 issues a command. -/
  | wr (agent inst reg value : Nat)
  /-- `rd REG`. -/
  | rd (agent inst reg : Nat)
  /-- `mem A, h`: the host stores bytes in the data space. -/
  | mem (addr : Nat) (bytes : List Byte)
  /-- The reading half of `chk A, h`: the host reads `len` bytes of the data space. -/
  | get (addr len : Nat)
  /-- Hardware reset of the engine (R290; log 14). -/
  | hwReset
deriving DecidableEq, Repr

end Sys2Proof
end

