-- ==== Sys2Proof/WellFormed.lean ====
section
/-! DEFINITION. Which command words and which host actions are well formed (spec 30_encoding.md R91, R96;
10_state.md R36). An `Instr` has no field to check: its word is fixed (R92), so every `Instr` is well formed. -/

namespace Sys2Proof

/-- R91: the reserved field must be 0. -/
def CommandFields.rsvOk (c : CommandFields) : Bool := c.rsv == 0

/-- R96 (b): the assigned operation codes are 0x01 to 0x07. -/
def CommandFields.opcOk (c : CommandFields) : Bool := 1 ≤ c.opc.toNat && c.opc.toNat ≤ 7

/-- R91: `LOGW` must be 0 but for operation code 0x02. -/
def CommandFields.logwOk (c : CommandFields) : Bool := c.opc == 2 || c.logw == 0

/-- The fields are those of a command (R96). -/
def CommandFields.wellFormed (c : CommandFields) : Bool := c.rsvOk && c.opcOk && c.logwOk

/-- No command has an operand field, so there is nothing to check (R91, R94). -/
def Instr.wellFormed : Instr → Bool
  | .transform => true
  | .d64 => true
  | .d64Way2 => true
  | .d64Way4 => true
  | .d64Way8 => true
  | .dispatch => true
  | .hReset => true
  | .hWrite => true
  | .hFinalize => true
  | .sha256d64 => true

/-- R36: a host may write registers 0 to 12 and `CMD` (15). -/
def HostAction.writable (reg : Nat) : Bool := reg ≤ 12 || reg == 15

/-- R36: a host may read registers 0 to 14. -/
def HostAction.readable (reg : Nat) : Bool := reg ≤ 14

/-- R36: the width in bits of a register: `AW` for the five operand registers, 32 for the others. -/
def HostAction.width (p : Params) (reg : Nat) : Nat := if 8 ≤ reg && reg ≤ 12 then p.aw else 32

/-- A host action that the register map of R36 lists: its instance exists, its register is accessible that way, and a
written value fits the register. Data-space actions and reset are always well formed. -/
def HostAction.wellFormed (p : Params) : HostAction → Bool
  | .wr _ k r v => k < p.ninst && HostAction.writable r && v < 2 ^ HostAction.width p r
  | .rd _ k r => k < p.ninst && HostAction.readable r
  | .mem _ _ => true
  | .get _ _ => true
  | .hwReset => true

end Sys2Proof
end

