-- ==== Sys2Proof/Decode.lean ====
section
/-! DEFINITION. The decoder of spec 30_encoding.md R95, total on all 2^32 words, and the encoder of R92. A command is a
number, not a byte string (R90), so no byte order enters. -/

namespace Sys2Proof

/-- The fields of a command word: `RSV` = bits 31:10, `LOGW` = bits 9:8, `OPC` = bits 7:0 (R91). -/
def fieldsOf (c : Word) : CommandFields where
  rsv := c.extractLsb' 10 22
  logw := c.extractLsb' 8 2
  opc := c.extractLsb' 0 8

/-- Why a word is illegal: the three groups of R96. -/
inductive IllegalCommand where
  /-- (a) a 1 in bits 31:10. -/
  | reservedBits
  /-- (b) an operation code that is not assigned. -/
  | unassignedOpcode
  /-- (c) `LOGW` not 0 for an operation code other than 0x02. -/
  | widthField
deriving DecidableEq, Repr

/-- The command of an operation code with `LOGW` = 0, other than the D64 family's 0x02 (R95). -/
def decodeOpc (opc : BitVec 8) : Option Instr :=
  if opc = 0x01 then some .transform
  else if opc = 0x03 then some .dispatch
  else if opc = 0x04 then some .hReset
  else if opc = 0x05 then some .hWrite
  else if opc = 0x06 then some .hFinalize
  else if opc = 0x07 then some .sha256d64
  else none

/-- The D64 command of batch width `2^LOGW` (R93). -/
def decodeD64 (logw : BitVec 2) : Instr :=
  if logw = 0 then .d64
  else if logw = 1 then .d64Way2
  else if logw = 2 then .d64Way4
  else .d64Way8

/-- R95 on the fields of a word. The reasons sort a refused word into the groups of R96. -/
def decodeFields (c : CommandFields) : Except IllegalCommand Instr :=
  if c.rsv ≠ 0 then .error .reservedBits
  else if c.opc = 0x02 then .ok (decodeD64 c.logw)
  else
    match decodeOpc c.opc with
    | none => .error .unassignedOpcode
    | some i => if c.logw ≠ 0 then .error .widthField else .ok i

/-- The decoder (R95). -/
def decode (c : Word) : Except IllegalCommand Instr := decodeFields (fieldsOf c)

/-- The operation code of a command (R92). -/
def Instr.opc : Instr → BitVec 8
  | .transform => 0x01
  | .d64 => 0x02
  | .d64Way2 => 0x02
  | .d64Way4 => 0x02
  | .d64Way8 => 0x02
  | .dispatch => 0x03
  | .hReset => 0x04
  | .hWrite => 0x05
  | .hFinalize => 0x06
  | .sha256d64 => 0x07

/-- The batch-width field of a command (R92, R93). -/
def Instr.logw : Instr → BitVec 2
  | .d64Way2 => 1
  | .d64Way4 => 2
  | .d64Way8 => 3
  | .transform => 0
  | .d64 => 0
  | .dispatch => 0
  | .hReset => 0
  | .hWrite => 0
  | .hFinalize => 0
  | .sha256d64 => 0

/-- The encoder: format C with `RSV` = 0 (R91, R92). -/
def encode (i : Instr) : Word := (0 : BitVec 22) ++ i.logw ++ i.opc

/-- The instruction the decoder reads from an opcode-table row's bits. The table numbers the bits of the one 32-bit
word as R91 does; the bits above `nbits` are 0. -/
def decodeTableWord (nbits w : Nat) : Option Instr :=
  if w % 2 ^ nbits < 2 ^ 32 then (decode (BitVec.ofNat 32 (w % 2 ^ nbits))).toOption else none

end Sys2Proof
end

