-- ==== Sys2Proof/Machine/Primitives.lean ====
section
/-! DEFINITION. Byte order (spec 00_scope.md R8), the word operators and the six logical functions
(40_primitives_rom.md R120 to R129). -/

namespace Sys2Proof.Machine

/-- `+32`: addition modulo 2^32 (R120). -/
def add32 (x y : Word) : Word := x + y

/-- `ROTR(n, x)` for `0 < n < 32` (R122). -/
def rotr (n : Nat) (x : Word) : Word := (x >>> n) ||| (x <<< (32 - n))

/-- `SHR(n, x)` for `0 < n < 32` (R123). -/
def shr (n : Nat) (x : Word) : Word := x >>> n

/-- `Ch` (R124). -/
def ch (x y z : Word) : Word := (x &&& y) ^^^ (~~~x &&& z)

/-- `Maj` (R125). -/
def maj (x y z : Word) : Word := (x &&& y) ^^^ (x &&& z) ^^^ (y &&& z)

/-- Capital sigma 0 (R126). -/
def bigSigma0 (x : Word) : Word := rotr 2 x ^^^ rotr 13 x ^^^ rotr 22 x

/-- Capital sigma 1 (R127). -/
def bigSigma1 (x : Word) : Word := rotr 6 x ^^^ rotr 11 x ^^^ rotr 25 x

/-- Small sigma 0 (R128). -/
def smallSigma0 (x : Word) : Word := rotr 7 x ^^^ rotr 18 x ^^^ shr 3 x

/-- Small sigma 1 (R129). -/
def smallSigma1 (x : Word) : Word := rotr 17 x ^^^ rotr 19 x ^^^ shr 10 x

/-- `be32`: four bytes, the most significant first, as a word (R8). -/
def be32 (b₀ b₁ b₂ b₃ : Byte) : Word := b₀ ++ b₁ ++ b₂ ++ b₃

/-- `enc32`: a word as four bytes, the most significant first (R8). -/
def enc32 (w : Word) : List Byte :=
  [w.extractLsb' 24 8, w.extractLsb' 16 8, w.extractLsb' 8 8, w.extractLsb' 0 8]

/-- `enc64`: a 64-bit number as eight bytes, the most significant first (R8). -/
def enc64 (n : BitVec 64) : List Byte :=
  [n.extractLsb' 56 8, n.extractLsb' 48 8, n.extractLsb' 40 8, n.extractLsb' 32 8,
   n.extractLsb' 24 8, n.extractLsb' 16 8, n.extractLsb' 8 8, n.extractLsb' 0 8]

/-- `words`: bytes read as big-endian words (R8, R150); 64 bytes give 16 words. -/
def words : List Byte → List Word
  | b₀ :: b₁ :: b₂ :: b₃ :: rest => be32 b₀ b₁ b₂ b₃ :: words rest
  | _ => []

/-- The bytes of a sequence of words, each by `enc32` (R8, R139, R182). -/
def encWords (ws : List Word) : List Byte := ws.flatMap enc32

/-- `digest(S)`: the 32 bytes of eight words (R8). -/
def digest (s : HashState) : List Byte := encWords s.toList

/-- A run of `n` zero bytes (R222). -/
def zeroBytes (n : Nat) : List Byte := List.replicate n 0

end Sys2Proof.Machine
end

