-- ==== Sys2Proof/Machine/Compression.lean ====
section
/-! DEFINITION. The message schedule (spec 41_message_schedule.md R150, R151), the round and the compression function
(42_compression.md R160 to R165), the padding of 45_hasher.md R222 and the hash of a whole message (R227). -/

namespace Sys2Proof.Machine

/-- The next schedule word after the words `w` so far: with `t = w.length`,
`sigma1(W[t-2]) +32 W[t-7] +32 sigma0(W[t-15]) +32 W[t-16]` (R151). -/
def scheduleWord (w : List Word) : Word :=
  add32 (add32 (add32 (smallSigma1 (w.getD (w.length - 2) 0)) (w.getD (w.length - 7) 0))
    (smallSigma0 (w.getD (w.length - 15) 0))) (w.getD (w.length - 16) 0)

/-- `n` further schedule words after the words `w`. -/
def extendSchedule : Nat → List Word → List Word
  | 0, w => w
  | n + 1, w => extendSchedule n (w ++ [scheduleWord w])

/-- `Schedule(B)`: the 16 words of the block and 48 more (R150, R151). -/
def schedule (block : List Byte) : List Word := extendSchedule 48 (words block)

/-- Round `t` on the working variables, with `k` = `K[t]` and `w` = `W[t]` (R162). -/
def round (v : HashState) (k w : Word) : HashState :=
  let t1 := add32 (add32 (add32 (add32 v.h (bigSigma1 v.e)) (ch v.e v.f v.g)) k) w
  let t2 := add32 (bigSigma0 v.a) (maj v.a v.b v.c)
  { a := add32 t1 t2, b := v.a, c := v.b, d := v.c, e := add32 v.d t1, f := v.e, g := v.f, h := v.g }

/-- The rounds, one for each pair of a round constant and a schedule word, in order (R162). -/
def rounds : HashState → List Word → List Word → HashState
  | v, k :: ks, w :: ws => rounds (round v k w) ks ws
  | v, [], _ => v
  | v, _ :: _, [] => v

/-- The feed-forward: the working variables added to the state (R164). -/
def feedForward (s v : HashState) : HashState where
  a := add32 s.a v.a
  b := add32 s.b v.b
  c := add32 s.c v.c
  d := add32 s.d v.d
  e := add32 s.e v.e
  f := add32 s.f v.f
  g := add32 s.g v.g
  h := add32 s.h v.h

/-- The rounds and the feed-forward over a given schedule, from `a..h` = `S[0..7]` (R161, R162, R164). -/
def compressSchedule (s : HashState) (w : List Word) : HashState := feedForward s (rounds s Rom.K w)

/-- `Compress(S, B)` (R165). -/
def compress (s : HashState) (block : List Byte) : HashState := compressSchedule s (schedule block)

/-- `Compress` over the first `n` consecutive 64-byte blocks of `data`, cumulatively (R170, R223). -/
def compressBlocks : Nat → HashState → List Byte → HashState
  | 0, s, _ => s
  | n + 1, s, data => compressBlocks n (compress s (data.take 64)) (data.drop 64)

/-- The number `z` of zero bytes in the padding of a message of `len` bytes: `(55 - len) mod 64` (R222). -/
def padZeros (len : Nat) : Nat := (119 - len % 64) % 64

/-- `Pad(L)`: 0x80, `z` zero bytes, the 64-bit big-endian bit count (R222). -/
def pad (len : Nat) : List Byte :=
  [0x80] ++ zeroBytes (padZeros len) ++ enc64 (BitVec.ofNat 64 (8 * len))

/-- `Fold(S, data)` over all the whole blocks of `data` (R227). -/
def foldBlocks (s : HashState) (data : List Byte) : HashState := compressBlocks (data.length / 64) s data

/-- `SHA256(M)` (R227). -/
def sha256 (m : List Byte) : List Byte := digest (foldBlocks Rom.IV (m ++ pad m.length))

end Sys2Proof.Machine
end

