-- ==== Sys2Proof/Machine/State.lean ====
section
/-! DEFINITION. The machine's state (spec 10_state.md), the reasons a step can stop, and the state after reset
(R40). -/

namespace Sys2Proof.Machine

/-- The fault codes of `STATUS.ERR` (60_exceptions.md R251). Their numbers are `ErrCode.code` (Flags.lean). -/
inductive ErrCode where
  | ok
  | illegalCmd
  | dead
  | notDispatched
  | widthUnavailable
  | hasherState
  | length
  | range
  | bus
  | overlap
  | tooLong
  | selftest
deriving DecidableEq, Repr

/-- The hasher state `HST` (R29); the value 3 never occurs. -/
inductive HasherState where
  | fresh
  | accumulating
  | finalized
deriving DecidableEq, Repr

/-- The configuration register's fields (R34); the register as a word is `Cfg.word` (Flags.lean). -/
structure Cfg where
  valid : Bool
  dead  : Bool
  w1    : Bool
  w2    : Bool
  w4    : Bool
  w8    : Bool
deriving DecidableEq, Repr

/-- `CFG` = 0 (R40). -/
def Cfg.reset : Cfg := ⟨false, false, false, false, false, false⟩

/-- The registers of one engine instance (R42). The operand registers are `AW` bits wide, `AW` a parameter, so they are
naturals below `2^AW` (log 18). -/
structure Instance where
  /-- The state registers `H[0..7]` (R20). -/
  h       : HashState
  /-- `BUF[0..63]`; only the first `bufLen` bytes are meaningful (R29). -/
  buf     : Vector Byte 64
  /-- `BUFLEN` (R29). -/
  bufLen  : Fin 64
  /-- `TOTAL`, the running byte count (R29). -/
  total   : BitVec 64
  /-- `HST` (R29), read through `STATUS`. -/
  hst     : HasherState
  /-- `SRC_ADDR` (R31). -/
  srcAddr : Nat
  /-- `SRC_LEN` (R31). -/
  srcLen  : Nat
  /-- `DST_ADDR` (R31). -/
  dstAddr : Nat
  /-- `DST_LEN` (R31). -/
  dstLen  : Nat
  /-- `CNT` (R31). -/
  cnt     : Nat
  /-- `STATUS.ERR` (R35). -/
  err     : ErrCode
  /-- The model's own: the host agent that has written a register of this instance since its last command (R296, U5;
  log 11). -/
  writer  : Option Nat
deriving DecidableEq, Repr

/-- An instance after hardware reset (R40, R291). The bytes of `BUF`, which R40 leaves unspecified and nothing reads,
are 0 (log 5, DESIGN CHOICE). -/
def Instance.reset : Instance where
  h := Rom.IV
  buf := Vector.replicate 64 0
  bufLen := 0
  total := 0
  hst := .fresh
  srcAddr := 0
  srcLen := 0
  dstAddr := 0
  dstLen := 0
  cnt := 0
  err := .ok
  writer := none

/-- The data space (20_memory.md R60): address and byte pairs, addresses strictly rising, none equal to what an
unlisted address reads as (`Memory.unlisted`, Ops.lean). -/
abbrev Memory := List Host.Cell

/-- Something the engine has handed to the host. The model's own (log 10). -/
inductive Receipt where
  /-- The value of a register read (R36). -/
  | reg (inst num value : Nat)
  /-- The bytes of a data-space read (R98). -/
  | bytes (addr : Nat) (bs : List Byte)
  /-- The result of a DISPATCH on an instance: `SUMMARY` of this table (R200, R204). -/
  | summary (inst : Nat) (table : BackendTable)
deriving DecidableEq, Repr

/-- The string of a DISPATCH result (R204): SUMMARY is uninterpreted. -/
def Receipt.text : Receipt → Option String
  | .summary _ t => some (Config.summary t)
  | .reg _ _ _ => none
  | .bytes _ _ => none

/-- The whole machine: the model arguments, the engine instances, the global state (R42), and the model's own record of
the host: what it will do next and what it has received. -/
structure State where
  /-- The model arguments of R6; no step changes them (R43; log 1). -/
  params   : Params
  /-- The `NINST` instances, number 0 first (R275). -/
  insts    : List Instance
  /-- The Active Backend Table (R33). -/
  abt      : BackendTable
  /-- The configuration register (R34). -/
  cfg      : Cfg
  /-- The data space (R60). -/
  mem      : Memory
  /-- The host's remaining actions, the next one first (R17, R98; log 6). -/
  script   : List HostAction
  /-- The number of the instance the current command is issued on (log 8). -/
  sel      : Nat
  /-- What the host has received, newest first (log 10). -/
  received : List Receipt
deriving DecidableEq, Repr

/-- Why the machine stops. -/
inductive Fault where
  /-- Raised by a host action that writes or reads a byte past the top of the data space, at an address of `2^AW` or
  more, which does not exist (R60). No command raises it: a command reports such a buffer as `E_RANGE`. Safe: the
  machine stops where a platform might go on (log 13). -/
  | noSuchAddress
deriving DecidableEq, Repr

/-- What has no meaning in the model. -/
inductive Refusal where
  /-- Raised by an arm of `exec` whose command has no meaning yet; no arm is left so. Safe. -/
  | notModelled (mnemonic : String)
  /-- Raised by a host register access that the register map does not list: a write of STATUS or CFG, a read of CMD, a
  register number above 15 (R36, U7). Safe (log 12). -/
  | hostRegisterAccess
  /-- Raised by a host write of a value that does not fit its register (R36, U7). Safe (log 12). -/
  | hostValueTooWide
  /-- Raised when an action or a command names an instance that does not exist (R275). Safe (log 8). -/
  | noSuchInstance
  /-- Raised when a host agent writes a register of an instance on which another agent is in the middle of its register
  writes (R72, R296, U5). Safe (log 11). -/
  | hostsInterleave
deriving DecidableEq, Repr

/-- The state after hardware reset with model arguments `p` (R40, R290): every instance fresh, the table and the
configuration register empty, nothing listed in memory (log 4), no host action waiting (log 6). -/
def State.resetWith (p : Params) : State where
  params := p
  insts := List.replicate p.ninst Instance.reset
  abt := BackendTable.empty
  cfg := Cfg.reset
  mem := []
  script := []
  sel := 0
  received := []

/-- The machine right after reset, with the default model arguments. -/
def State.reset : State := State.resetWith Params.default

end Sys2Proof.Machine
end

