-- ==== Sys2Proof/Machine/Ops.lean ====
section
/-! DEFINITION. The named operations over memory and registers: the data space (spec 20_memory.md R60 to R62), the
instance a command is issued on, the checks of a command, and taking a fault (60_exceptions.md R252 to R254). -/

namespace Sys2Proof.Machine

/-! ### The data space -/

/-- What an address that is not listed reads as. The spec gives no contents; 0 is the model's choice (log 4, DESIGN
CHOICE). -/
def Memory.unlisted : Byte := 0

/-- The byte at address `a`. -/
def Memory.read (m : Memory) (a : Nat) : Byte :=
  match m with
  | [] => Memory.unlisted
  | c :: rest => if c.1 = a then c.2 else Memory.read rest a

/-- List the byte `b` at address `a`, keeping the addresses rising and one entry for each. -/
def Memory.insert (m : Memory) (a : Nat) (b : Byte) : Memory :=
  match m with
  | [] => [(a, b)]
  | c :: rest =>
    if a < c.1 then (a, b) :: c :: rest
    else if a = c.1 then (a, b) :: rest
    else c :: Memory.insert rest a b

/-- Set the byte at address `a`. Writing what an unlisted address reads as removes the entry. -/
def Memory.write (m : Memory) (a : Nat) (b : Byte) : Memory :=
  if b = Memory.unlisted then m.filter (fun c => c.1 != a) else Memory.insert m a b

/-- `MemRead(addr, n)`: the `n` bytes from `addr` up, in ascending order (R61). -/
def Memory.readBytes (m : Memory) (addr : Nat) : Nat → List Byte
  | 0 => []
  | n + 1 => m.read addr :: Memory.readBytes m (addr + 1) n

/-- `MemWrite(addr, n, s)`: the bytes of `s` at `addr` up, the first at the lowest address (R62). -/
def Memory.writeBytes (m : Memory) (addr : Nat) (s : List Byte) : Memory :=
  match s with
  | [] => m
  | b :: rest => Memory.writeBytes (m.write addr b) (addr + 1) rest

/-- The canonical form: addresses strictly rising, and no entry equal to what an unlisted address reads as. -/
abbrev Memory.wf (m : Memory) : Prop :=
  m.Pairwise (fun c d => c.1 < d.1) ∧ ∀ c ∈ m, c.2 ≠ Memory.unlisted

/-! ### The instance a command is issued on -/

/-- The registers of the instance the current command is issued on. -/
def State.current (s : State) : Option Instance := s.insts[s.sel]?

/-- Replace the registers of that instance; no other instance changes (R42). -/
def State.put (s : State) (x : Instance) : State := { s with insts := s.insts.set s.sel x }

/-- A command completes: `STATUS.ERR <- 0` (R35, R252 step 12), with the instance's registers otherwise `x`. -/
def State.commit (s : State) (x : Instance) : State := s.put { x with err := .ok }

/-- What every command returns: a next state, a stop, or a refusal. -/
abbrev Result := Host.Outcome State Fault Refusal

/-- Run a command on the current instance. -/
def State.onCurrent (s : State) (f : Instance → Result) : Result :=
  match s.current with
  | none => .refused .noSuchInstance
  | some x => f x

/-! ### Faults -/

/-- `raise E`: `STATUS.ERR <- E` on the issuing instance, and `CFG.DEAD <- 1` if `E` is `E_SELFTEST`; nothing else
changes (R254). This is the engine's whole way of taking an exception: nothing is saved and control goes nowhere. There
is no return from it (R268). -/
def State.raise (s : State) (x : Instance) (e : ErrCode) : State :=
  let t := s.put { x with err := e }
  if e = .selftest then { t with cfg := { t.cfg with dead := true } } else t

/-- The code of the first check that fails, in the order listed (R252, R267). -/
def firstFault : List (Bool × ErrCode) → Option ErrCode
  | [] => none
  | c :: rest => if c.1 then some c.2 else firstFault rest

/-- All checks precede all effects (R253): raise the first that fails, or perform the command, whose state is `t`. -/
def State.guarded (s : State) (x : Instance) (checks : List (Bool × ErrCode)) (t : State) : Result :=
  match firstFault checks with
  | some e => .next (s.raise x e)
  | none => .next t

end Sys2Proof.Machine
end

