-- ==== Sys2Proof/Machine/Operands.lean ====
section
/-! DEFINITION. The operands of a command (spec 30_encoding.md R94): buffers, which are an address register and a length
register, their admission (20_memory.md R66, R67), and the width bits of `CFG` (43_d64.md R186). Everything is computed
on unbounded naturals (00_scope.md R7, D37). -/

namespace Sys2Proof.Machine

/-- A buffer of the data space: the `len` bytes from `addr` up. -/
structure Buffer where
  addr : Nat
  len  : Nat
deriving DecidableEq, Repr

/-- The source buffer (R31). -/
def Instance.src (x : Instance) : Buffer := ⟨x.srcAddr, x.srcLen⟩

/-- The destination buffer (R31). -/
def Instance.dst (x : Instance) : Buffer := ⟨x.dstAddr, x.dstLen⟩

/-- An address lies in a region. -/
def inRegion (r : Region) (a : Nat) : Bool := r.base ≤ a && a < r.base + r.size

/-- `Mapped(a)`: the address exists and no unmapped region holds it (R6, R60). -/
def mapped (p : Params) (a : Nat) : Bool := a < 2 ^ p.aw && p.unmapped.all (fun r => !inRegion r a)

/-- Two buffers share a byte: both are non-empty and each starts before the other ends (R67). -/
def overlaps (b c : Buffer) : Bool :=
  0 < b.len && 0 < c.len && b.addr < c.addr + c.len && c.addr < b.addr + b.len

/-- Check 2 of R66 fails: the buffer runs past the top of the space; there is no wrap-around. -/
def outOfRange (p : Params) (b : Buffer) : Bool := 2 ^ p.aw < b.addr + b.len

/-- Check 3 of R66 fails for a buffer inside the space: it holds a byte of an unmapped region. -/
def hasUnmapped (p : Params) (b : Buffer) : Bool := p.unmapped.any (fun r => overlaps b ⟨r.base, r.size⟩)

/-- The width bit of a batch width: `CFG.W1`, `W2`, `W4`, `W8` for 1, 2, 4, 8 (R186). No other width exists (R93). -/
def Cfg.installed (c : Cfg) (n : Nat) : Bool :=
  if n = 1 then c.w1
  else if n = 2 then c.w2
  else if n = 4 then c.w4
  else if n = 8 then c.w8
  else false

/-- The checks every command but DISPATCH makes first (R252 steps 2 and 3). -/
def State.readyChecks (s : State) : List (Bool × ErrCode) :=
  [(s.cfg.dead, .dead), (!s.cfg.valid, .notDispatched)]

/-- Checks 2 and 3 of R66 on one buffer. -/
def State.bufferChecks (s : State) (b : Buffer) : List (Bool × ErrCode) :=
  [(outOfRange s.params b, .range), (hasUnmapped s.params b, .bus)]

/-- Checks 2 and 3 of R66 on two buffers, each check on both before the next (C9), and the overlap check of R67. -/
def State.twoBufferChecks (s : State) (b c : Buffer) : List (Bool × ErrCode) :=
  [(outOfRange s.params b || outOfRange s.params c, .range),
   (hasUnmapped s.params b || hasUnmapped s.params c, .bus),
   (overlaps b c, .overlap)]

end Sys2Proof.Machine
end

