-- ==== Sys2Proof/Machine/D64.lean ====
section
/-! DEFINITION. The double-hash pipeline (spec 43_d64.md): the function `D64fn`, the lane groups that compute it in
lockstep (10_state.md R26), and the commands D64, D64_2WAY, D64_4WAY and D64_8WAY. -/

namespace Sys2Proof.Machine

/-- `D64fn(X)` (R182). -/
def d64fn (x : List Byte) : List Byte :=
  let s1 := compress Rom.IV x
  let s2 := compress s1 (encWords Rom.PADA)
  let mid := digest s2
  let s3 := compress Rom.IV (mid ++ encWords Rom.PADB)
  digest s3

/-- The lane bank `LS`: lane `l`'s chaining value is entry `l` (R26). It is transient, a local value of a command (R28,
R41; log 9). -/
abbrev LaneBank := List HashState

/-- One compression in a lane group: lane `l` compresses its own block into its own state (R166). -/
def LaneBank.compress (bank : LaneBank) (blocks : List (List Byte)) : LaneBank :=
  List.zipWith Machine.compress bank blocks

/-- Every lane at the initial constants. -/
def LaneBank.fresh (n : Nat) : LaneBank := List.replicate n Rom.IV

/-- The first `n` consecutive 64-byte blocks of `data`, one for each lane (R152). -/
def laneBlocks : Nat → List Byte → List (List Byte)
  | 0, _ => []
  | n + 1, data => data.take 64 :: laneBlocks n (data.drop 64)

/-- A lane group of width `n` over `n` concatenated blocks: the three stages of R181 in every lane at once, then the
`n` digests in lane order (R187). -/
def laneGroup (n : Nat) (data : List Byte) : List Byte :=
  let s1 := (LaneBank.fresh n).compress (laneBlocks n data)
  let s2 := s1.compress (List.replicate n (encWords Rom.PADA))
  let s3 := (LaneBank.fresh n).compress (s2.map fun st => digest st ++ encWords Rom.PADB)
  s3.flatMap digest

/-- The checks of a D64-type command of width `n`, in the order of R187. -/
def d64Checks (n : Nat) (s : State) (x : Instance) : List (Bool × ErrCode) :=
  s.readyChecks ++
    [(!s.cfg.installed n, .widthUnavailable),
     (x.srcLen != 64 * n || x.dstLen != 32 * n, .length)] ++
    s.twoBufferChecks x.src x.dst

/-- The effect of a D64-type command of width `n`: the `n` digests stored at `DST_ADDR` (R187). -/
def d64Effect (n : Nat) (s : State) (x : Instance) : State :=
  { s.commit x with mem := s.mem.writeBytes x.dstAddr (laneGroup n (s.mem.readBytes x.srcAddr (64 * n))) }

/-- A D64-type command of width `n` (R187). -/
def d64Command (n : Nat) (s : State) : Result :=
  s.onCurrent fun x => s.guarded x (d64Checks n s x) (d64Effect n s x)

/-- D64 (R185): one lane, lane 0. -/
def execD64 (s : State) : Result := d64Command 1 s

/-- D64_2WAY (R188): lanes 0 and 1. -/
def execD64Way2 (s : State) : Result := d64Command 2 s

/-- D64_4WAY (R189): lanes 0 to 3. -/
def execD64Way4 (s : State) : Result := d64Command 4 s

/-- D64_8WAY (R190): lanes 0 to 7. -/
def execD64Way8 (s : State) : Result := d64Command 8 s

end Sys2Proof.Machine
end

