-- ==== Sys2Proof/Machine/Batch.lean ====
section
/-! DEFINITION. The batch double-hash driver, SHA256D64 (spec 46_batch_driver.md R240 to R245). -/

namespace Sys2Proof.Machine

/-- The width of the driver's next lane group when `n` blocks remain, `n` at least 1: the widest installed width that is
at most `n`, or 1 (R241). -/
def nextWidth (c : Cfg) (n : Nat) : Nat :=
  if 8 ≤ n ∧ c.w8 then 8
  else if 4 ≤ n ∧ c.w4 then 4
  else if 2 ≤ n ∧ c.w2 then 2
  else 1

/-- `Plan(n, CFG)` with a bound on the number of lane groups (R241). -/
def planWithin (c : Cfg) : Nat → Nat → List Nat
  | 0, _ => []
  | _ + 1, 0 => []
  | bound + 1, n + 1 => nextWidth c (n + 1) :: planWithin c bound (n + 1 - nextWidth c (n + 1))

/-- `Plan(n, CFG)`, the widths of the lane groups in order (R241); `n` blocks never take more than `n` groups. -/
def plan (c : Cfg) (n : Nat) : List Nat := planWithin c n n

/-- The digests of the blocks of `data`, computed lane group by lane group as planned (R240). -/
def runPlan : List Nat → List Byte → List Byte
  | [], _ => []
  | n :: rest, data => laneGroup n data ++ runPlan rest (data.drop (64 * n))

/-- The checks of SHA256D64 in the order of R240. -/
def sha256d64Checks (s : State) (x : Instance) : List (Bool × ErrCode) :=
  s.readyChecks ++ [(x.srcLen != 64 * x.cnt || x.dstLen != 32 * x.cnt, .length)] ++ s.twoBufferChecks x.src x.dst

/-- The effect of SHA256D64: the `CNT` digests stored at `DST_ADDR` in the order of the blocks (R240, R242). -/
def sha256d64Effect (s : State) (x : Instance) : State :=
  { s.commit x with
    mem := s.mem.writeBytes x.dstAddr (runPlan (plan s.cfg x.cnt) (s.mem.readBytes x.srcAddr (64 * x.cnt))) }

/-- SHA256D64 (R240). -/
def execSha256d64 (s : State) : Result :=
  s.onCurrent fun x => s.guarded x (sha256d64Checks s x) (sha256d64Effect s x)

end Sys2Proof.Machine
end

