-- ==== Sys2Proof/Machine/Dispatcher.lean ====
section
/-! DEFINITION. DISPATCH: the selection of backends and the Self-Test (spec 44_dispatch_selftest.md R200 to R213). -/

namespace Sys2Proof.Machine

/-- The value of a requirement on a capability set (R6). -/
def reqHolds (cap : List Capability) : CapReq → Bool
  | .always => true
  | .has c => cap.contains c
  | .not r => !reqHolds cap r
  | .and r₁ r₂ => reqHolds cap r₁ && reqHolds cap r₂
  | .or r₁ r₂ => reqHolds cap r₁ || reqHolds cap r₂

/-- The candidates for a slot whose requirement holds (R201). -/
def eligible (p : Params) (slot : Slot) : List Candidate :=
  p.candidates.filter fun c => c.slots.contains slot && reqHolds p.cap c.requires

/-- The candidate of highest expected throughput, that is of lowest rank (R201). Of two with equal rank the one listed
first is taken (log 16, DESIGN CHOICE). -/
def fastest : List Candidate → Option Candidate
  | [] => none
  | c :: rest =>
    match fastest rest with
    | none => some c
    | some d => if c.rank ≤ d.rank then some c else some d

/-- `Select(CAP, CANDIDATES)`: each slot filled independently (R201, R209). -/
def selectTable (p : Params) : BackendTable where
  core := (fastest (eligible p .core)).map (·.id)
  d64x1 := (fastest (eligible p .d64x1)).map (·.id)
  d64x2 := (fastest (eligible p .d64x2)).map (·.id)
  d64x4 := (fastest (eligible p .d64x4)).map (·.id)
  d64x8 := (fastest (eligible p .d64x8)).map (·.id)

/-- `REF[i]`: the state after the first `i` blocks of the self-test text (R206). -/
def selfTestRef (text : List Byte) : Nat → HashState
  | 0 => Rom.IV
  | i + 1 => compress (selfTestRef text i) ((text.drop (64 * i)).take 64)

/-- `REFD`: the double hash of the first 64 bytes of the self-test text (R206). -/
def selfTestDigest (text : List Byte) : List Byte := d64fn (text.take 64)

/-- Backends as functions: a Compression Core that runs a number of blocks from a state, and a D64 backend for each batch
width (R206). -/
structure Backends where
  core : HashState → List Byte → Nat → HashState
  d64  : Nat → List Byte → List Byte

/-- Every backend the function of the spec (R12, R167). -/
def Backends.faithful : Backends where
  core := fun s data n => compressBlocks n s data
  d64 := laneGroup

/-- The three groups of known-answer checks of R206 on the backends `b` of a tentative table: the core over 0 to 8
leading blocks, the scalar D64, and each filled wide D64 with the first block in every lane. -/
def knownAnswerTest (text : List Byte) (t : BackendTable) (b : Backends) : Bool :=
  (List.range 9).all (fun i => b.core Rom.IV text i == selfTestRef text i) &&
    b.d64 1 (text.take 64) == selfTestDigest text &&
    ([(2, t.d64x2), (4, t.d64x4), (8, t.d64x8)] : List (Nat × Option String)).all (fun w =>
      w.2.isNone ||
        b.d64 w.1 (List.replicate w.1 (text.take 64)).flatten == (List.replicate w.1 (selfTestDigest text)).flatten)

/-- `SelfTest(T)`. Every backend of the model is the function of the spec, so that the checks of R206, `knownAnswerTest`,
hold by construction; the parameter `SELFTEST_OK` stands for a defective backend (R207, R13; log 15). -/
def selfTest (p : Params) (_ : BackendTable) : Bool := p.selftestOk

/-- The bits of `CFG` a table publishes (R200, R202). -/
def publishedCfg (t : BackendTable) : Cfg where
  valid := true
  dead := false
  w1 := true
  w2 := t.d64x2.isSome
  w4 := t.d64x4.isSome
  w8 := t.d64x8.isSome

/-- The faults of DISPATCH: an earlier one failed, or this one fails its Self-Test. With `CFG.VALID` = 1 no Self-Test
runs (R200, R203). -/
def dispatchChecks (s : State) : List (Bool × ErrCode) :=
  [(s.cfg.dead, .dead), (!s.cfg.valid && !selfTest s.params (selectTable s.params), .selftest)]

/-- The effect of DISPATCH: a repeated one only hands over the summary again (R203); the first publishes the table and
`CFG` in one step (R202) and hands over its summary (R204). -/
def dispatchEffect (s : State) (x : Instance) : State :=
  let t := s.commit x
  if s.cfg.valid then
    { t with received := .summary s.sel s.abt :: s.received }
  else
    { t with
      abt := selectTable s.params
      cfg := publishedCfg (selectTable s.params)
      received := .summary s.sel (selectTable s.params) :: s.received }

/-- DISPATCH (R200). -/
def execDispatch (s : State) : Result :=
  s.onCurrent fun x => s.guarded x (dispatchChecks s) (dispatchEffect s x)

end Sys2Proof.Machine
end

