-- ==== Sys2Proof/Machine/Hasher.lean ====
section
/-! DEFINITION. The incremental hasher: H_RESET, H_WRITE and H_FINALIZE (spec 45_hasher.md R220 to R225). -/

namespace Sys2Proof.Machine

/-- The meaningful bytes of `BUF`, `BUF[0 .. BUFLEN)` (R29). -/
def Instance.buffered (x : Instance) : List Byte := x.buf.toList.take x.bufLen.val

/-- `BUF[0 .. bytes.length) <- bytes`; the bytes above stay (R223; log 5). -/
def storeBuf (buf : Vector Byte 64) (bytes : List Byte) : Vector Byte 64 :=
  ⟨((bytes ++ buf.toList.drop bytes.length).take 64).toArray, by
    simp only [List.size_toArray, List.length_take, List.length_append, List.length_drop, Vector.length_toList]
    omega⟩

/-- H_WRITE's appending of `data`: whole blocks of `BUF[0 .. BUFLEN) || data` are compressed, the rest is kept (R223). -/
def Instance.absorb (x : Instance) (data : List Byte) : Instance :=
  let stream := x.buffered ++ data
  let q := stream.length / 64
  { x with
    h := compressBlocks q x.h stream
    buf := storeBuf x.buf (stream.drop (64 * q))
    bufLen := ⟨stream.length % 64, Nat.mod_lt _ (by decide)⟩
    total := BitVec.ofNat 64 (x.total.toNat + data.length)
    hst := .accumulating }

/-- The state H_FINALIZE leaves in `H`: the blocks of `BUF[0 .. BUFLEN) || Pad(TOTAL)` compressed (R225). -/
def Instance.finalState (x : Instance) : HashState := foldBlocks x.h (x.buffered ++ pad x.total.toNat)

/-- The effect of H_RESET (R221). -/
def hResetEffect (s : State) (x : Instance) : State :=
  s.commit { x with h := Rom.IV, bufLen := 0, total := 0, hst := .fresh }

/-- H_RESET (R221): legal in every hasher state. -/
def execHReset (s : State) : Result :=
  s.onCurrent fun x => s.guarded x s.readyChecks (hResetEffect s x)

/-- The checks of H_WRITE in the order of R223. It has no length requirement (R260). -/
def hWriteChecks (s : State) (x : Instance) : List (Bool × ErrCode) :=
  s.readyChecks ++ [(x.hst == .finalized, .hasherState)] ++ s.bufferChecks x.src ++
    [(decide (2 ^ 61 ≤ x.total.toNat + x.srcLen), .tooLong)]

/-- The effect of H_WRITE (R223). -/
def hWriteEffect (s : State) (x : Instance) : State :=
  s.commit (x.absorb (s.mem.readBytes x.srcAddr x.srcLen))

/-- H_WRITE (R223). -/
def execHWrite (s : State) : Result :=
  s.onCurrent fun x => s.guarded x (hWriteChecks s x) (hWriteEffect s x)

/-- The checks of H_FINALIZE in the order of R225. -/
def hFinalizeChecks (s : State) (x : Instance) : List (Bool × ErrCode) :=
  s.readyChecks ++ [(x.hst == .finalized, .hasherState), (x.dstLen != 32, .length)] ++ s.bufferChecks x.dst

/-- The effect of H_FINALIZE: the digest is stored at `DST_ADDR`, `H` holds its words, and `BUF`, `BUFLEN`, `TOTAL` stay
(R225, D35). -/
def hFinalizeEffect (s : State) (x : Instance) : State :=
  { s.commit { x with h := x.finalState, hst := .finalized } with
    mem := s.mem.writeBytes x.dstAddr (digest x.finalState) }

/-- H_FINALIZE (R225). -/
def execHFinalize (s : State) : Result :=
  s.onCurrent fun x => s.guarded x (hFinalizeChecks s x) (hFinalizeEffect s x)

end Sys2Proof.Machine
end

