-- ==== Sys2Proof/Machine/Transform.lean ====
section
/-! DEFINITION. TRANSFORM (spec 42_compression.md R170, R171). -/

namespace Sys2Proof.Machine

/-- The checks of TRANSFORM in the order of R170. -/
def transformChecks (s : State) (x : Instance) : List (Bool × ErrCode) :=
  s.readyChecks ++ [(x.srcLen != 64 * x.cnt, .length)] ++ s.bufferChecks x.src

/-- The effect of TRANSFORM: `CNT` blocks of the source compressed into `H` (R170). -/
def transformEffect (s : State) (x : Instance) : State :=
  s.commit { x with h := compressBlocks x.cnt x.h (s.mem.readBytes x.srcAddr x.srcLen) }

/-- TRANSFORM (R170). It does not look at `HST` (R171 f). -/
def execTransform (s : State) : Result :=
  s.onCurrent fun x => s.guarded x (transformChecks s x) (transformEffect s x)

end Sys2Proof.Machine
end

