-- ==== Sys2Proof/Machine/Dispatch.lean ====
section
/-! DEFINITION. One arm per command (spec 30_encoding.md R92). -/

namespace Sys2Proof.Machine

/-- The meaning of a command issued on the current instance (60_exceptions.md R252 steps 2 to 12). -/
def exec (i : Instr) (s : State) : Host.Outcome State Fault Refusal :=
  match i with
  | .transform => Sys2Proof.Machine.execTransform s
  | .d64 => Sys2Proof.Machine.execD64 s
  | .d64Way2 => Sys2Proof.Machine.execD64Way2 s
  | .d64Way4 => Sys2Proof.Machine.execD64Way4 s
  | .d64Way8 => Sys2Proof.Machine.execD64Way8 s
  | .dispatch => Sys2Proof.Machine.execDispatch s
  | .hReset => Sys2Proof.Machine.execHReset s
  | .hWrite => Sys2Proof.Machine.execHWrite s
  | .hFinalize => Sys2Proof.Machine.execHFinalize s
  | .sha256d64 => Sys2Proof.Machine.execSha256d64 s

end Sys2Proof.Machine
end

