-- ==== Sys2Proof/Machine/Flags.lean ====
section
/-! DEFINITION. The engine has no arithmetic flags (spec 10_state.md R25). Its status is the registers `STATUS` (R35)
and `CFG` (R34); here are their words and the numbers of their fields. -/

namespace Sys2Proof.Machine

/-- The fault codes' numbers (60_exceptions.md R251). -/
def ErrCode.code : ErrCode → BitVec 8
  | .ok => 0x00
  | .illegalCmd => 0x01
  | .dead => 0x02
  | .notDispatched => 0x03
  | .widthUnavailable => 0x04
  | .hasherState => 0x05
  | .length => 0x06
  | .range => 0x07
  | .bus => 0x08
  | .overlap => 0x09
  | .tooLong => 0x0A
  | .selftest => 0x0B

/-- The hasher states' numbers (R29). -/
def HasherState.code : HasherState → BitVec 2
  | .fresh => 0
  | .accumulating => 1
  | .finalized => 2

/-- `STATUS`: `ERR` in bits 7:0, `HST` in bits 9:8, bits 31:10 read as 0 (R35). -/
def Instance.statusWord (x : Instance) : Word := (0 : BitVec 22) ++ x.hst.code ++ x.err.code

/-- `CFG`: `VALID`, `DEAD`, `W1`, `W2`, `W4`, `W8` in bits 0 to 5, bits 31:6 read as 0 (R34). -/
def Cfg.word (c : Cfg) : Word :=
  (0 : BitVec 26) ++ BitVec.ofBool c.w8 ++ BitVec.ofBool c.w4 ++ BitVec.ofBool c.w2 ++ BitVec.ofBool c.w1 ++
    BitVec.ofBool c.dead ++ BitVec.ofBool c.valid

end Sys2Proof.Machine
end

