-- ==== Sys2Proof/Machine/HostActions.lean ====
section
/-! DEFINITION. What each host action does: register accesses by number (spec 10_state.md R36), issuing a command
(60_exceptions.md R252), data-space accesses (30_encoding.md R98) and hardware reset (70_reset_and_hazards.md R290). -/

namespace Sys2Proof.Machine

/-- The registers a host reaches by number (R36). -/
inductive HostReg where
  | h (j : Fin 8)
  | srcAddr
  | srcLen
  | dstAddr
  | dstLen
  | cnt
  | status
  | cfg
  | cmd
deriving DecidableEq, Repr

/-- The register map of R36. -/
def hostReg (n : Nat) : Option HostReg :=
  match n with
  | 0 => some (.h 0)
  | 1 => some (.h 1)
  | 2 => some (.h 2)
  | 3 => some (.h 3)
  | 4 => some (.h 4)
  | 5 => some (.h 5)
  | 6 => some (.h 6)
  | 7 => some (.h 7)
  | 8 => some .srcAddr
  | 9 => some .srcLen
  | 10 => some .dstAddr
  | 11 => some .dstLen
  | 12 => some .cnt
  | 13 => some .status
  | 14 => some .cfg
  | 15 => some .cmd
  | _ => none

/-- `H[j]` (R20). -/
def hashWord (s : HashState) (j : Fin 8) : Word :=
  match j with
  | 0 => s.a
  | 1 => s.b
  | 2 => s.c
  | 3 => s.d
  | 4 => s.e
  | 5 => s.f
  | 6 => s.g
  | 7 => s.h

/-- `H[j] <- w` (R20). -/
def setHashWord (s : HashState) (j : Fin 8) (w : Word) : HashState :=
  match j with
  | 0 => { s with a := w }
  | 1 => { s with b := w }
  | 2 => { s with c := w }
  | 3 => { s with d := w }
  | 4 => { s with e := w }
  | 5 => { s with f := w }
  | 6 => { s with g := w }
  | 7 => { s with h := w }

/-- The value a host reads from a register of instance `x`; `CMD` cannot be read (R32, R36). -/
def readHostReg (c : Cfg) (x : Instance) : HostReg → Option Nat
  | .h j => some (hashWord x.h j).toNat
  | .srcAddr => some x.srcAddr
  | .srcLen => some x.srcLen
  | .dstAddr => some x.dstAddr
  | .dstLen => some x.dstLen
  | .cnt => some x.cnt
  | .status => some x.statusWord.toNat
  | .cfg => some c.word.toNat
  | .cmd => none

/-- The instance after a host write of `v` to a register that is not `CMD`; `STATUS` and `CFG` cannot be written
(R36). -/
def writeHostReg (x : Instance) (v : Nat) : HostReg → Option Instance
  | .h j => some { x with h := setHashWord x.h j (BitVec.ofNat 32 v) }
  | .srcAddr => some { x with srcAddr := v }
  | .srcLen => some { x with srcLen := v }
  | .dstAddr => some { x with dstAddr := v }
  | .dstLen => some { x with dstLen := v }
  | .cnt => some { x with cnt := v }
  | .status => none
  | .cfg => none
  | .cmd => none

/-- The width of a register in bits: `AW` for the operand registers, 32 for the others (R36). -/
def hostRegWidth (p : Params) : HostReg → Nat
  | .srcAddr => p.aw
  | .srcLen => p.aw
  | .dstAddr => p.aw
  | .dstLen => p.aw
  | .cnt => p.aw
  | .h _ => 32
  | .status => 32
  | .cfg => 32
  | .cmd => 32

/-- A host write of the word `c` to `CMD` of instance `k`: decode, check, perform (R32, R90, R252). An illegal word
faults with `E_ILLEGAL_CMD` before `CFG` is looked at (R255). -/
def State.issue (s : State) (k : Nat) (c : Word) : Result :=
  let t := { s with sel := k }
  match decode c with
  | .ok i => exec i t
  | .error _ => t.onCurrent fun x => .next (t.raise x .illegalCmd)

/-- A host write of `v` to register `n` of instance `k`, whose registers are `x`. A write of `CMD` ends the agent's
sequence and issues the command; any other write replaces the whole register and has no other effect (R36). -/
def State.writeReg (s : State) (agent k n v : Nat) (x : Instance) : Result :=
  match hostReg n with
  | none => .refused .hostRegisterAccess
  | some .cmd =>
    if 2 ^ 32 ≤ v then .refused .hostValueTooWide
    else State.issue { s with insts := s.insts.set k { x with writer := none } } k (BitVec.ofNat 32 v)
  | some r =>
    match writeHostReg x v r with
    | none => .refused .hostRegisterAccess
    | some y =>
      if 2 ^ hostRegWidth s.params r ≤ v then .refused .hostValueTooWide
      else .next { s with insts := s.insts.set k { y with writer := some agent } }

/-- A host read of register `n` of instance `k`, whose registers are `x`: the host receives the current value, and
nothing else happens (R36). -/
def State.readReg (s : State) (k n : Nat) (x : Instance) : Result :=
  match (hostReg n).bind (readHostReg s.cfg x) with
  | none => .refused .hostRegisterAccess
  | some v => .next { s with received := .reg k n v :: s.received }

/-- Every byte of the buffer is a byte of the data space: its address is below `2^AW` (R60). The host reaches them all,
mapped or not (R16); `Mapped` is asked of the buffers of commands only (R66). A buffer of no bytes holds none that is
missing. -/
def bufferExists (p : Params) (b : Buffer) : Bool := b.len == 0 || !outOfRange p b

/-- Hardware reset: every instance and all global state take the values of R40 at once (R290). The parameters, the data
space and the host's own record are not the engine's and stay (log 14). -/
def State.hwReset (s : State) : State :=
  { s with
    insts := List.replicate s.params.ninst Instance.reset
    abt := BackendTable.empty
    cfg := Cfg.reset
    sel := 0 }

/-- One host action (R98). A data-space access past the top of the space stops by name (log 13). A register write by an agent while another is in the middle of its writes on the instance is
refused (R72, R296, U5; log 11). -/
def State.act (s : State) : HostAction → Result
  | .wr agent k n v =>
    match s.insts[k]? with
    | none => .refused .noSuchInstance
    | some x =>
      if x.writer.any (· != agent) then .refused .hostsInterleave
      else s.writeReg agent k n v x
  | .rd _ k n =>
    match s.insts[k]? with
    | none => .refused .noSuchInstance
    | some x => s.readReg k n x
  | .mem addr bytes =>
    if bufferExists s.params ⟨addr, bytes.length⟩ then .next { s with mem := s.mem.writeBytes addr bytes }
    else .fault .noSuchAddress
  | .get addr len =>
    if bufferExists s.params ⟨addr, len⟩ then
      .next { s with received := .bytes addr (s.mem.readBytes addr len) :: s.received }
    else .fault .noSuchAddress
  | .hwReset => .next s.hwReset

end Sys2Proof.Machine
end

