-- ==== Sys2Proof/Machine/Script.lean ====
section
/-! DEFINITION. The script notation's pseudo-commands (spec 30_encoding.md R98, R99): each is a list of host actions,
made by one agent on one instance. -/

namespace Sys2Proof.Machine.Script

/-- The bare command: `wr CMD, <its word>` (R98). -/
def command (agent k : Nat) (i : Instr) : List HostAction := [.wr agent k 15 (encode i).toNat]

/-- `wr SRC_ADDR, addr` ; `wr SRC_LEN, len`. -/
def setSrc (agent k addr len : Nat) : List HostAction := [.wr agent k 8 addr, .wr agent k 9 len]

/-- `wr DST_ADDR, addr` ; `wr DST_LEN, len`. -/
def setDst (agent k addr len : Nat) : List HostAction := [.wr agent k 10 addr, .wr agent k 11 len]

/-- `transform src, cnt`. -/
def transform (agent k src cnt : Nat) : List HostAction :=
  setSrc agent k src (64 * cnt) ++ [.wr agent k 12 cnt] ++ command agent k .transform

/-- `transform_d64 dst, src`. -/
def transformD64 (agent k dst src : Nat) : List HostAction :=
  setSrc agent k src 64 ++ setDst agent k dst 32 ++ command agent k .d64

/-- `transform_d64_2way dst, src`. -/
def transformD64Way2 (agent k dst src : Nat) : List HostAction :=
  setSrc agent k src 128 ++ setDst agent k dst 64 ++ command agent k .d64Way2

/-- `transform_d64_4way dst, src`. -/
def transformD64Way4 (agent k dst src : Nat) : List HostAction :=
  setSrc agent k src 256 ++ setDst agent k dst 128 ++ command agent k .d64Way4

/-- `transform_d64_8way dst, src`. -/
def transformD64Way8 (agent k dst src : Nat) : List HostAction :=
  setSrc agent k src 512 ++ setDst agent k dst 256 ++ command agent k .d64Way8

/-- `sha256d64 dst, src, cnt`. -/
def sha256d64 (agent k dst src cnt : Nat) : List HostAction :=
  setSrc agent k src (64 * cnt) ++ setDst agent k dst (32 * cnt) ++ [.wr agent k 12 cnt] ++
    command agent k .sha256d64

/-- `write src, len`. -/
def write (agent k src len : Nat) : List HostAction := setSrc agent k src len ++ command agent k .hWrite

/-- `finalize dst`. -/
def finalize (agent k dst : Nat) : List HostAction := setDst agent k dst 32 ++ command agent k .hFinalize

/-- `reset`. -/
def reset (agent k : Nat) : List HostAction := command agent k .hReset

/-- `dispatch`. -/
def dispatch (agent k : Nat) : List HostAction := command agent k .dispatch

/-- `seth w0, ..., w7`. -/
def seth (agent k : Nat) (s : HashState) : List HostAction :=
  [.wr agent k 0 s.a.toNat, .wr agent k 1 s.b.toNat, .wr agent k 2 s.c.toNat, .wr agent k 3 s.d.toNat,
   .wr agent k 4 s.e.toNat, .wr agent k 5 s.f.toNat, .wr agent k 6 s.g.toNat, .wr agent k 7 s.h.toNat]

/-- `sha256 dst, src, len`. -/
def sha256 (agent k dst src len : Nat) : List HostAction :=
  reset agent k ++ write agent k src len ++ finalize agent k dst

end Sys2Proof.Machine.Script
end

