-- ==== Sys2Proof/Machine/Step.lean ====
section
/-! DEFINITION. One step of the machine: the host's next action (spec 00_scope.md R16, R17). -/

namespace Sys2Proof.Machine

/-- The host's next action is performed as one indivisible step (R10, R70). With no action left the engine waits: it
acts only when its host issues a command (R16, R17, R277). -/
def step (s : State) : Host.Outcome State Fault Refusal :=
  match s.script with
  | [] => .next s
  | a :: rest => State.act { s with script := rest } a

/-- `s` with a command word as the host's very next action: a write of the word to `CMD` of instance 0, the instance of
a line without `@k` (R98), made by the agent that may write that instance now (log 6). -/
def State.withFetchWord (s : State) (nbits w : Nat) : State :=
  { s with
    script := .wr ((s.insts[0]?.bind (·.writer)).getD 0) 0 15 (w % 2 ^ nbits) :: s.script }

end Sys2Proof.Machine
end

