-- ==== Sys2Proof/Safety.lean ====
section
/-! DEFINITION. What a well-formed state is, in the terms claims use: the invariants the spec states of the engine
(10_state.md R30, R31, R33, R34; 20_memory.md R60), and what a run without a stop is. -/

namespace Sys2Proof.Machine

/-- The registers of an instance hold legal values: operand registers of `AW` bits (R31), and R30's
`BUFLEN = TOTAL mod 64`, `TOTAL < 2^61`, and `TOTAL = 0` in state FRESH. (R30 states them for FRESH and ACCUMULATING;
H_FINALIZE changes none of them, so they hold in FINALIZED as well.) -/
structure Instance.Ok (p : Params) (x : Instance) : Prop where
  srcAddr_lt : x.srcAddr < 2 ^ p.aw
  srcLen_lt : x.srcLen < 2 ^ p.aw
  dstAddr_lt : x.dstAddr < 2 ^ p.aw
  dstLen_lt : x.dstLen < 2 ^ p.aw
  cnt_lt : x.cnt < 2 ^ p.aw
  bufLen_eq : x.bufLen.val = x.total.toNat % 64
  total_lt : x.total.toNat < 2 ^ 61
  fresh_total : x.hst = .fresh → x.total = 0

/-- The invariants of R33 and R34: `VALID` and `DEAD` exclude each other, `W1 = VALID`, the width bits say which slots
of the table are filled, and before publication the table is empty. -/
structure CfgMatches (c : Cfg) (t : BackendTable) : Prop where
  not_both : ¬(c.valid = true ∧ c.dead = true)
  w1_eq : c.w1 = c.valid
  w2_eq : c.w2 = t.d64x2.isSome
  w4_eq : c.w4 = t.d64x4.isSome
  w8_eq : c.w8 = t.d64x8.isSome
  published : c.valid = true → t.core.isSome = true ∧ t.d64x1.isSome = true
  unpublished : c.valid = false → t = BackendTable.empty

/-- The invariant of the machine. -/
structure State.Inv (s : State) : Prop where
  params_wf : s.params.Wf
  insts_len : s.insts.length = s.params.ninst
  sel_lt : s.sel < s.params.ninst
  insts_ok : ∀ x ∈ s.insts, x.Ok s.params
  cfg_ok : CfgMatches s.cfg s.abt
  mem_wf : s.mem.wf
  mem_inside : ∀ c ∈ s.mem, c.1 < 2 ^ s.params.aw

/-- The engine accepts commands other than DISPATCH (R256, R257). -/
structure State.Ready (s : State) : Prop where
  valid : s.cfg.valid = true
  alive : s.cfg.dead = false

/-- A buffer the engine admits: inside the space and mapped throughout, byte by byte (R66 checks 2 and 3). -/
structure Admitted (p : Params) (b : Buffer) : Prop where
  inside : b.addr + b.len ≤ 2 ^ p.aw
  mapped_all : ∀ a, b.addr ≤ a → a < b.addr + b.len → mapped p a = true

/-- Two buffers share no byte (R67). -/
def Disjoint (b c : Buffer) : Prop :=
  ∀ a, ¬((b.addr ≤ a ∧ a < b.addr + b.len) ∧ (c.addr ≤ a ∧ a < c.addr + c.len))

/-! ### The tables of the spec that speak of all commands -/

/-- The batch width of a D64-type command (R93). -/
def batchWidth : Instr → Option Nat
  | .d64 => some 1
  | .d64Way2 => some 2
  | .d64Way4 => some 4
  | .d64Way8 => some 8
  | .transform | .dispatch | .hReset | .hWrite | .hFinalize | .sha256d64 => none

/-- The lengths a command requires, each beside the length register that must hold it (30_encoding.md R94, R260). -/
def requiredLengths (i : Instr) (x : Instance) : List (Nat × Nat) :=
  match i with
  | .transform => [(x.srcLen, 64 * x.cnt)]
  | .d64 => [(x.srcLen, 64), (x.dstLen, 32)]
  | .d64Way2 => [(x.srcLen, 128), (x.dstLen, 64)]
  | .d64Way4 => [(x.srcLen, 256), (x.dstLen, 128)]
  | .d64Way8 => [(x.srcLen, 512), (x.dstLen, 256)]
  | .hFinalize => [(x.dstLen, 32)]
  | .sha256d64 => [(x.srcLen, 64 * x.cnt), (x.dstLen, 32 * x.cnt)]
  | .dispatch | .hReset | .hWrite => []

/-- The buffer a command reads, if it reads the data space (R63). -/
def readsOf (i : Instr) (x : Instance) : List Buffer :=
  match i with
  | .transform | .hWrite | .d64 | .d64Way2 | .d64Way4 | .d64Way8 | .sha256d64 => [x.src]
  | .hFinalize | .dispatch | .hReset => []

/-- The buffer a command writes, if it writes the data space (R63). -/
def writesOf (i : Instr) (x : Instance) : List Buffer :=
  match i with
  | .hFinalize | .d64 | .d64Way2 | .d64Way4 | .d64Way8 | .sha256d64 => [x.dst]
  | .transform | .hWrite | .dispatch | .hReset => []

/-- The condition of each fault code for a command issued on an instance with registers `x`, as R251, R252 and R260 to
R265 give it: buffers byte by byte. -/
def CheckFails (s : State) (x : Instance) (i : Instr) : ErrCode → Prop
  | .ok => False
  | .illegalCmd => False
  | .dead => s.cfg.dead = true
  | .notDispatched => i ≠ .dispatch ∧ s.cfg.valid = false
  | .widthUnavailable => ∃ n, batchWidth i = some n ∧ s.cfg.installed n = false
  | .hasherState => (i = .hWrite ∨ i = .hFinalize) ∧ x.hst = .finalized
  | .length => ∃ l ∈ requiredLengths i x, l.1 ≠ l.2
  | .range => ∃ b ∈ readsOf i x ++ writesOf i x, 2 ^ s.params.aw < b.addr + b.len
  | .bus => ∃ b ∈ readsOf i x ++ writesOf i x, ∃ a, b.addr ≤ a ∧ a < b.addr + b.len ∧ mapped s.params a = false
  | .overlap => ∃ b ∈ readsOf i x, ∃ c ∈ writesOf i x, ¬Disjoint b c
  | .tooLong => i = .hWrite ∧ 2 ^ 61 ≤ x.total.toNat + x.srcLen
  | .selftest => i = .dispatch ∧ s.cfg.valid = false ∧ s.params.selftestOk = false

/-- The condition of each fault code for a word written to `CMD` (R252, with step 1). -/
def IssueFails (s : State) (x : Instance) (c : Word) (e : ErrCode) : Prop :=
  match decode c with
  | .error _ => e = .illegalCmd
  | .ok i => CheckFails s x i e

/-- A slot of the Active Backend Table (R33). -/
def tableSlot (t : BackendTable) : Slot → Option String
  | .core => t.core
  | .d64x1 => t.d64x1
  | .d64x2 => t.d64x2
  | .d64x4 => t.d64x4
  | .d64x8 => t.d64x8

/-- A candidate for the slot exists whose requirement holds; for a wide slot this is `AVAIL(N)` (R6). -/
def Available (p : Params) (slot : Slot) : Prop :=
  ∃ c ∈ p.candidates, slot ∈ c.slots ∧ reqHolds p.cap c.requires = true

/-- An agent may write the registers of an instance: no other agent is in the middle of its writes (R296, U5). -/
def Instance.FreeFor (x : Instance) (agent : Nat) : Prop := x.writer = none ∨ x.writer = some agent

/-! ### Runs -/

/-- One H_WRITE of a run: the bytes `buf` of the data space, which the host has left holding `mem` before the command. -/
structure HashWrite where
  mem : Memory
  buf : Buffer
deriving DecidableEq, Repr

/-- The bytes an H_WRITE appends. -/
def HashWrite.bytes (w : HashWrite) : List Byte := w.mem.readBytes w.buf.addr w.buf.len

/-- From `s` the host makes the H_WRITEs `ws` on the current instance one after another, before each of them filling the
data space as it likes and setting `SRC_ADDR` and `SRC_LEN`; every one completes with `STATUS.ERR` = 0, and the last
leaves `t` (R228). -/
def State.HWritesComplete (s : State) : List HashWrite → State → Prop
  | [], t => t = s
  | w :: ws, t => ∃ x u y, s.current = some x ∧
      exec .hWrite { s.put { x with srcAddr := w.buf.addr, srcLen := w.buf.len } with mem := w.mem } = .next u ∧
      u.current = some y ∧ y.err = .ok ∧ u.HWritesComplete ws t

/-- `n` steps from `s` neither fault nor are refused. -/
def State.SafeFor : Nat → State → Prop
  | 0, _ => True
  | n + 1, s => ∃ t, step s = .next t ∧ State.SafeFor n t

end Sys2Proof.Machine
end

