-- ==== Sys2Proof/Certificates/Slice0/Obligations.lean ====
section
/-! DEFINITION. The statements about the machine that the provers settle. Each docstring names the rule of spec/ it
formalises. -/

open Sys2Proof Sys2Proof.Machine

/-! ### Encoding -/

/-- Command words written out bit by bit from format C (R91, R92) decode to the commands they stand for. -/
def Obligations.CommandWordsWrittenOutDecode : Prop :=
  decode 0b00000000000000000000000000000001 = .ok .transform ∧
    decode 0b00000000000000000000001000000010 = .ok .d64Way4 ∧
    decode 0b00000000000000000000000000000011 = .ok .dispatch ∧
    decode 0b00000000000000000000000000000101 = .ok .hWrite ∧
    decode 0b00000000000000000000000000000111 = .ok .sha256d64

/-- R92: the opcode map, and "These ten words are the only legal commands". -/
def Obligations.TheTenCommandWordsAreTheOnlyLegalCommands : Prop :=
  ∀ (w : Word) (i : Instr), decode w = .ok i ↔
    (w, i) ∈ ([(0x00000001, .transform), (0x00000002, .d64), (0x00000102, .d64Way2), (0x00000202, .d64Way4),
      (0x00000302, .d64Way8), (0x00000003, .dispatch), (0x00000004, .hReset), (0x00000005, .hWrite),
      (0x00000006, .hFinalize), (0x00000007, .sha256d64)] : List (Word × Instr))

/-- Decoding and encoding agree in both directions, for every command and every word (R91, R92, R95). -/
def Obligations.DecodeAndEncodeAgree : Prop :=
  (∀ i : Instr, i.wellFormed = true → decode (encode i) = .ok i) ∧
    (∀ (w : Word) (i : Instr), decode w = .ok i → encode i = w) ∧
    ∀ w : Word, (fieldsOf w).wellFormed = true ↔ ∃ i, decode w = .ok i

/-- R95: decoding as the rule's own chain of tests on `c[31:10]`, `c[9:8]` and `c[7:0]`, and a word that decodes to
ILLEGAL faults with `E_ILLEGAL_CMD`. -/
def Obligations.DecodingFollowsTheRulesChain : Prop :=
  (∀ c : Word, (decode c).toOption =
    if c.toNat / 2 ^ 10 ≠ 0 then none
    else if c.toNat % 256 = 0x02 then
      (if c.toNat / 256 % 4 = 0 then some .d64
      else if c.toNat / 256 % 4 = 1 then some .d64Way2
      else if c.toNat / 256 % 4 = 2 then some .d64Way4
      else some .d64Way8)
    else if c.toNat / 256 % 4 ≠ 0 then none
    else if c.toNat % 256 = 0x01 then some .transform
    else if c.toNat % 256 = 0x03 then some .dispatch
    else if c.toNat % 256 = 0x04 then some .hReset
    else if c.toNat % 256 = 0x05 then some .hWrite
    else if c.toNat % 256 = 0x06 then some .hFinalize
    else if c.toNat % 256 = 0x07 then some .sha256d64
    else none) ∧
  ∀ (s : State) (k : Nat) (x : Instance) (c : Word), s.insts[k]? = some x → (decode c).toOption = none →
    s.issue k c = .next (State.raise { s with sel := k } x .illegalCmd)

/-! ### A step -/

/-- A step whose host action writes a word to `CMD` of an instance issues that word there, with the action taken from the
script and the host's write sequence ended; for a word that decodes this is `exec` of the decoded command (R16, R70,
R90; log 6, log 11). And `withFetchWord` makes a word the very next action. -/
def Obligations.StepRunsTheDecodedCommand : Prop :=
  (∀ (s : State) (agent k v : Nat) (rest : List HostAction) (x : Instance),
    s.script = .wr agent k 15 v :: rest → s.insts[k]? = some x → x.FreeFor agent → v < 2 ^ 32 →
    step s = State.issue { s with script := rest, insts := s.insts.set k { x with writer := none } } k
      (BitVec.ofNat 32 v)) ∧
  (∀ (s : State) (agent k v : Nat) (rest : List HostAction) (x : Instance) (i : Instr),
    s.script = .wr agent k 15 v :: rest → s.insts[k]? = some x → x.FreeFor agent → v < 2 ^ 32 →
    decode (BitVec.ofNat 32 v) = .ok i →
    step s = exec i { s with script := rest, sel := k, insts := s.insts.set k { x with writer := none } }) ∧
  ∀ (s : State) (w : Nat) (x : Instance) (i : Instr), s.insts[0]? = some x → w < 2 ^ 32 →
    decode (BitVec.ofNat 32 w) = .ok i →
    step (s.withFetchWord 32 w) = exec i { s with sel := 0, insts := s.insts.set 0 { x with writer := none } }

/-- With no host action left the engine waits: it acts only when its host issues a command (R16, R17, R277; log 6). -/
def Obligations.EngineWaitsWithoutAHostAction : Prop :=
  ∀ s : State, s.script = [] → step s = .next s

/-- R255: a word that is no command, issued on any instance, faults with `E_ILLEGAL_CMD` whatever `CFG` holds, and
changes nothing else. -/
def Obligations.IllegalWordFaultsBeforeCfgIsLookedAt : Prop :=
  ∀ (s : State) (k : Nat) (x : Instance) (c : Word), s.insts[k]? = some x → (∀ i : Instr, c ≠ encode i) →
    s.issue k c = .next { s with sel := k, insts := s.insts.set k { x with err := .illegalCmd } }

/-- A step takes exactly the next host action, and changes neither the parameters (R43) nor the number of instances. -/
def Obligations.StepTakesOneActionAndKeepsTheParameters : Prop :=
  ∀ s t : State, s.insts.length = s.params.ninst → step s = .next t →
    t.script = s.script.tail ∧ t.params = s.params ∧ t.insts.length = s.insts.length

/-- A host read of a register of R36 hands the host its current value and has no side effect; the values are those of
R20, R31, R34 and R35. -/
def Obligations.HostReadReturnsTheRegisterAndChangesNothing : Prop :=
  ∀ (s : State) (agent k n : Nat) (rest : List HostAction) (x : Instance) (v : Nat),
    s.script = .rd agent k n :: rest → s.insts[k]? = some x →
    [x.h.a.toNat, x.h.b.toNat, x.h.c.toNat, x.h.d.toNat, x.h.e.toNat, x.h.f.toNat, x.h.g.toNat, x.h.h.toNat,
      x.srcAddr, x.srcLen, x.dstAddr, x.dstLen, x.cnt, x.statusWord.toNat, s.cfg.word.toNat][n]? = some v →
    step s = .next { s with script := rest, received := .reg k n v :: s.received }

/-- A host write to one of the registers 0 to 12 of R36 replaces that whole register and has no other effect: every
other register of the instance reads as before, its hidden registers and its error code are unchanged, and so is the
rest of the machine. (The model also records the writing agent; log 11.) -/
def Obligations.HostWriteReplacesOneRegister : Prop :=
  ∀ (s : State) (agent k n v : Nat) (rest : List HostAction) (x : Instance),
    s.script = .wr agent k n v :: rest → s.insts[k]? = some x → x.FreeFor agent → n ≤ 12 →
    v < 2 ^ HostAction.width s.params n →
    ∃ y, step s = .next { s with script := rest, insts := s.insts.set k y } ∧
      (hostReg n).bind (readHostReg s.cfg y) = some v ∧
      (∀ m, m ≤ 14 → m ≠ n → (hostReg m).bind (readHostReg s.cfg y) = (hostReg m).bind (readHostReg s.cfg x)) ∧
      y.buf = x.buf ∧ y.bufLen = x.bufLen ∧ y.total = x.total ∧ y.hst = x.hst ∧ y.err = x.err ∧
      y.writer = some agent

/-- Host accesses that the register map does not list are refused (R36, U7; log 12), and so are a value that does not
fit its register, a register write while another agent is in the middle of its writes on the instance (R72, R296, U5;
log 11), and an instance that does not exist (log 8). -/
def Obligations.UnlistedHostAccessesAreRefused : Prop :=
  (∀ (s : State) (agent k n : Nat) (rest : List HostAction) (x : Instance),
    s.script = .rd agent k n :: rest → s.insts[k]? = some x → 15 ≤ n →
    step s = .refused .hostRegisterAccess) ∧
  (∀ (s : State) (agent k n v : Nat) (rest : List HostAction) (x : Instance),
    s.script = .wr agent k n v :: rest → s.insts[k]? = some x → x.FreeFor agent →
    (n = 13 ∨ n = 14 ∨ 15 < n → step s = .refused .hostRegisterAccess) ∧
    (n ≤ 12 ∨ n = 15 → 2 ^ HostAction.width s.params n ≤ v → step s = .refused .hostValueTooWide)) ∧
  (∀ (s : State) (agent other k n v : Nat) (rest : List HostAction) (x : Instance),
    s.script = .wr agent k n v :: rest → s.insts[k]? = some x → x.writer = some other → other ≠ agent →
    step s = .refused .hostsInterleave) ∧
  ∀ (s : State) (agent k n v : Nat) (rest : List HostAction), s.insts.length ≤ k →
    (s.script = .rd agent k n :: rest → step s = .refused .noSuchInstance) ∧
    (s.script = .wr agent k n v :: rest → step s = .refused .noSuchInstance)

/-- The host writes and reads any bytes of the data space, those at unmapped addresses too, and exactly those (R16,
R60, R98); an access that touches an address past the top of the space, which does not exist, stops by name (log 13). -/
def Obligations.HostReachesOnlyExistingBytes : Prop :=
  (∀ (s : State) (addr : Nat) (bs : List Byte) (rest : List HostAction), s.script = .mem addr bs :: rest →
    ((∀ a, addr ≤ a → a < addr + bs.length → a < 2 ^ s.params.aw) →
      ∃ t, step s = .next t ∧ t = { s with script := rest, mem := t.mem } ∧
        (∀ i (h : i < bs.length), t.mem.read (addr + i) = bs[i]) ∧
        ∀ a, a < addr ∨ addr + bs.length ≤ a → t.mem.read a = s.mem.read a) ∧
    ((∃ a, addr ≤ a ∧ a < addr + bs.length ∧ 2 ^ s.params.aw ≤ a) → step s = .fault .noSuchAddress)) ∧
  ∀ (s : State) (addr len : Nat) (rest : List HostAction), s.script = .get addr len :: rest →
    ((∀ a, addr ≤ a → a < addr + len → a < 2 ^ s.params.aw) →
      step s = .next { s with
        script := rest
        received := .bytes addr ((List.range len).map fun i => s.mem.read (addr + i)) :: s.received }) ∧
    ((∃ a, addr ≤ a ∧ a < addr + len ∧ 2 ^ s.params.aw ≤ a) → step s = .fault .noSuchAddress)

/-! ### Reset and invariants -/

/-- R40: what hardware reset leaves, from the start with any parameters and from any state. The bytes of `BUF`, which
R40 leaves unspecified, are not stated. -/
def Obligations.ResetLeavesTheValuesOfTheTable : Prop :=
  ∀ (p : Params) (s : State),
    (s = State.resetWith p ∨ ∃ r rest, r.params = p ∧ r.script = .hwReset :: rest ∧ step r = .next s) →
    s.params = p ∧ s.insts.length = p.ninst ∧ s.cfg.word = 0 ∧ s.abt = BackendTable.empty ∧
    ∀ x ∈ s.insts,
      x.h.toList = [0x6a09e667, 0xbb67ae85, 0x3c6ef372, 0xa54ff53a, 0x510e527f, 0x9b05688c, 0x1f83d9ab, 0x5be0cd19] ∧
      x.bufLen = 0 ∧ x.total = 0 ∧ x.hst = .fresh ∧ x.srcAddr = 0 ∧ x.srcLen = 0 ∧ x.dstAddr = 0 ∧ x.dstLen = 0 ∧
      x.cnt = 0 ∧ x.err.code = 0

/-- The state after reset meets the invariant, for every legal choice of the parameters. -/
def Obligations.ResetStateMeetsTheInvariant : Prop :=
  State.reset.Inv ∧ ∀ p : Params, p.Wf → (State.resetWith p).Inv

/-- Every step keeps the invariant: legal operand registers (R31), the hasher invariants of R30, the table and `CFG`
invariants of R33 and R34, and a data space in canonical form inside the addresses of R60. -/
def Obligations.EveryStepKeepsTheInvariant : Prop :=
  ∀ s t : State, s.Inv → step s = .next t → t.Inv

/-- R302: `CFG` and `ABT` change at most once after reset. A step that changes either is hardware reset, or a DISPATCH
issued while neither `VALID` nor `DEAD` is set, and it leaves one of the two set; so once one is set, no step but
hardware reset changes `CFG` or `ABT`. -/
def Obligations.ConfigurationIsWrittenOnce : Prop :=
  ∀ s t : State, step s = .next t → t.cfg ≠ s.cfg ∨ t.abt ≠ s.abt →
    (∃ rest, s.script = .hwReset :: rest) ∨
      (s.cfg.valid = false ∧ s.cfg.dead = false ∧ (t.cfg.valid = true ∨ t.cfg.dead = true) ∧
        ∃ agent k rest, s.script = .wr agent k 15 (encode .dispatch).toNat :: rest)

/-! ### Faults -/

/-- R252: a word written to `CMD` is checked in the fixed order of the codes' numbers and reports the first check that
fails, each check applied to every buffer, byte by byte; if none fails the command is performed and `STATUS.ERR` is
0. -/
def Obligations.TheFirstFailingCheckIsReported : Prop :=
  (∀ (s : State) (k : Nat) (x : Instance) (c : Word) (e : ErrCode), s.insts[k]? = some x → IssueFails s x c e →
    (∀ e' : ErrCode, e'.code.toNat < e.code.toNat → ¬IssueFails s x c e') →
    s.issue k c = .next (State.raise { s with sel := k } x e)) ∧
  ∀ (s : State) (k : Nat) (x : Instance) (c : Word), s.insts[k]? = some x → (∀ e : ErrCode, ¬IssueFails s x c e) →
    ∃ i t y, decode c = .ok i ∧ s.issue k c = exec i { s with sel := k } ∧ s.issue k c = .next t ∧
      t.insts[k]? = some y ∧ y.err = .ok

/-- R254: `raise E` sets `STATUS.ERR` of the issuing instance, sets `CFG.DEAD` if `E` is `E_SELFTEST`, and changes
nothing else; the error code of no other instance is touched. -/
def Obligations.RaisingAFaultChangesOnlyTheErrorCode : Prop :=
  ∀ (s : State) (x : Instance) (e : ErrCode), s.current = some x →
    ∃ t, t = s.raise x e ∧ t.current = some { x with err := e } ∧
      (∀ j, j ≠ s.sel → t.insts[j]? = s.insts[j]?) ∧
      t.cfg = (if e = .selftest then { s.cfg with dead := true } else s.cfg) ∧
      t = { s with insts := t.insts, cfg := t.cfg }

/-- R253: when a word written to `CMD` faults, no register other than `STATUS.ERR` (and `CFG.DEAD` for `E_SELFTEST`) and
no byte of the data space has changed. -/
def Obligations.FaultsArePrecise : Prop :=
  ∀ (s t : State) (k : Nat) (c : Word) (x y : Instance), s.insts[k]? = some x → s.issue k c = .next t →
    t.insts[k]? = some y → y.err ≠ .ok →
    t = { s with
      sel := k
      insts := s.insts.set k { x with err := y.err }
      cfg := if y.err = .selftest then { s.cfg with dead := true } else s.cfg }

/-- Every command on an instance that exists answers a next state: no loop is unbounded and no command stops the machine
(R308, R250). -/
def Obligations.EveryCommandAnswersANextState : Prop :=
  ∀ (i : Instr) (s : State), s.sel < s.insts.length → ∃ t, exec i s = .next t ∧ t.sel = s.sel

/-- R256: once a DISPATCH has failed its Self-Test, every legal command on every instance, DISPATCH included, faults with
`E_DEAD` and does nothing, until hardware reset; host register reads and writes still work. -/
def Obligations.DeadEngineFaultsEveryCommand : Prop :=
  (∀ (i : Instr) (s : State) (k : Nat) (x : Instance), s.insts[k]? = some x → s.cfg.dead = true →
    s.issue k (encode i) = .next { s with sel := k, insts := s.insts.set k { x with err := .dead } }) ∧
  (∀ s t : State, s.cfg.dead = true → (∀ rest, s.script ≠ .hwReset :: rest) → step s = .next t →
    t.cfg.dead = true) ∧
  (∀ (s : State) (rest : List HostAction), s.script = .hwReset :: rest →
    ∃ t, step s = .next t ∧ t.cfg.dead = false ∧ t.cfg.valid = false) ∧
  ∀ (s : State) (agent k n : Nat) (rest : List HostAction) (x : Instance), s.cfg.dead = true →
    s.insts[k]? = some x →
    (s.script = .rd agent k n :: rest → n ≤ 14 → ∃ v, (hostReg n).bind (readHostReg s.cfg x) = some v ∧
      step s = .next { s with script := rest, received := .reg k n v :: s.received }) ∧
    ∀ v, s.script = .wr agent k n v :: rest → n ≤ 12 → v < 2 ^ HostAction.width s.params n → x.FreeFor agent →
      ∃ y, step s = .next { s with script := rest, insts := s.insts.set k y } ∧
        (hostReg n).bind (readHostReg s.cfg y) = some v

/-- R257: before a successful DISPATCH every other command faults with `E_NOT_DISPATCHED`, H_RESET too. -/
def Obligations.NothingButDispatchRunsBeforeDispatch : Prop :=
  ∀ (i : Instr) (s : State) (x : Instance), i ≠ .dispatch → s.current = some x → s.cfg.dead = false →
    s.cfg.valid = false → exec i s = .next (s.put { x with err := .notDispatched })

/-- R258: a wide D64 command whose width bit is 0 faults with `E_WIDTH_UNAVAILABLE`; the fault cannot occur for D64,
whose bit is `VALID`, nor for SHA256D64. -/
def Obligations.WidthNotInstalledFaults : Prop :=
  (∀ (i : Instr) (n : Nat) (s : State) (x : Instance), (i, n) ∈ [(Instr.d64Way2, 2), (.d64Way4, 4), (.d64Way8, 8)] →
    s.current = some x → s.Ready → s.cfg.installed n = false →
    exec i s = .next (s.put { x with err := .widthUnavailable })) ∧
  ∀ (i : Instr) (s t : State) (y : Instance), i = .d64 ∨ i = .sha256d64 → s.cfg.w1 = s.cfg.valid →
    exec i s = .next t → t.current = some y → y.err ≠ .widthUnavailable

/-! ### What every command leaves alone -/

/-- The frame of every command, whether it completes or faults: it changes only its own instance, none of that
instance's operand registers (R31), the configuration, the table and what the host has received only if it is DISPATCH
(R34), `H` only if it is TRANSFORM, H_RESET, H_WRITE or H_FINALIZE (R20), `BUF` only if it is H_WRITE, `BUFLEN` and
`TOTAL` only if it is H_RESET or H_WRITE, `HST` only if it is one of the three hasher commands (R94), and the data space
only if it is H_FINALIZE, a D64-type command or SHA256D64 (R63). -/
def Obligations.CommandsChangeOnlyWhatTheTableSays : Prop :=
  ∀ (i : Instr) (s t : State) (x : Instance), s.current = some x → exec i s = .next t →
    t.params = s.params ∧ t.script = s.script ∧ t.sel = s.sel ∧ (∀ j, j ≠ s.sel → t.insts[j]? = s.insts[j]?) ∧
    (i ≠ .dispatch → t.cfg = s.cfg ∧ t.abt = s.abt ∧ t.received = s.received) ∧
    (writesOf i x = [] → ∀ a, t.mem.read a = s.mem.read a) ∧
    ∃ y, t.current = some y ∧ y.srcAddr = x.srcAddr ∧ y.srcLen = x.srcLen ∧ y.dstAddr = x.dstAddr ∧
      y.dstLen = x.dstLen ∧ y.cnt = x.cnt ∧ y.writer = x.writer ∧
      (i ∉ [Instr.transform, .hReset, .hWrite, .hFinalize] → y.h = x.h) ∧
      (i ≠ .hWrite → y.buf = x.buf) ∧
      (i ∉ [Instr.hReset, .hWrite] → y.bufLen = x.bufLen ∧ y.total = x.total) ∧
      (i ∉ [Instr.hReset, .hWrite, .hFinalize] → y.hst = x.hst)

/-- R79: after a command that completes, every byte outside its destination buffer is unchanged and, inside, every byte
has been written: the buffer no longer depends on what it held. After a command that faults, no byte has changed. -/
def Obligations.OutputIsWhollyWrittenAndNothingElse : Prop :=
  ∀ (i : Instr) (s t : State) (x y : Instance), s.current = some x → exec i s = .next t → t.current = some y →
    (y.err ≠ .ok → ∀ a, t.mem.read a = s.mem.read a) ∧
    (y.err = .ok →
      (∀ a, (∀ b ∈ writesOf i x, a < b.addr ∨ b.addr + b.len ≤ a) → t.mem.read a = s.mem.read a) ∧
      ∀ b ∈ writesOf i x, ∀ m : Memory,
        (∀ c ∈ readsOf i x, ∀ a, c.addr ≤ a → a < c.addr + c.len → m.read a = s.mem.read a) →
        ∃ u, exec i { s with mem := m } = .next u ∧ u.mem.readBytes b.addr b.len = t.mem.readBytes b.addr b.len)

/-- The D64-type commands, SHA256D64 and DISPATCH neither read nor write `H`, `BUF`, `BUFLEN`, `TOTAL` or `HST`: with
any other values there they answer the same state, with those values still there (R20, R180, R212). -/
def Obligations.DoubleHashesAndDispatchIgnoreTheHasher : Prop :=
  ∀ (i : Instr) (s t : State) (x : Instance) (h : HashState) (buf : Vector Byte 64) (bufLen : Fin 64)
    (total : BitVec 64) (hst : HasherState),
    i ∈ [Instr.d64, .d64Way2, .d64Way4, .d64Way8, .sha256d64, .dispatch] → s.current = some x → exec i s = .next t →
    ∃ y, t.current = some y ∧
      y.h = x.h ∧ y.buf = x.buf ∧ y.bufLen = x.bufLen ∧ y.total = x.total ∧ y.hst = x.hst ∧
      exec i (s.put { x with h := h, buf := buf, bufLen := bufLen, total := total, hst := hst }) =
        .next (t.put { y with h := h, buf := buf, bufLen := bufLen, total := total, hst := hst })

/-- Commands on two different instances commute if neither writes a byte the other reads or writes (R72): in either
order they leave the same registers everywhere and the same bytes. DISPATCH does not commute (R74) and is not
covered. -/
def Obligations.CommandsOnDifferentInstancesCommute : Prop :=
  ∀ (i j : Instr) (k l : Nat) (s t₁ t₂ u₁ u₂ : State) (x y : Instance), k ≠ l → i ≠ .dispatch → j ≠ .dispatch →
    s.insts[k]? = some x → s.insts[l]? = some y →
    (∀ b ∈ writesOf i x, ∀ c ∈ readsOf j y ++ writesOf j y, Disjoint b c) →
    (∀ b ∈ writesOf j y, ∀ c ∈ readsOf i x ++ writesOf i x, Disjoint b c) →
    exec i { s with sel := k } = .next t₁ → exec j { t₁ with sel := l } = .next t₂ →
    exec j { s with sel := l } = .next u₁ → exec i { u₁ with sel := k } = .next u₂ →
    t₂.insts = u₂.insts ∧ (∀ a, t₂.mem.read a = u₂.mem.read a) ∧ t₂.cfg = u₂.cfg ∧ t₂.abt = u₂.abt

/-! ### Words, schedule, compression -/

/-- R61 and R62: what a read of the data space returns, and what a write changes. -/
def Obligations.MemoryReadsAndWritesByteByByte : Prop :=
  (∀ (m : Memory) (addr n : Nat), (m.readBytes addr n).length = n ∧
    ∀ i, i < n → (m.readBytes addr n)[i]? = some (m.read (addr + i))) ∧
  ∀ (m : Memory) (addr : Nat) (s : List Byte),
    (∀ i (h : i < s.length), (m.writeBytes addr s).read (addr + i) = s[i]) ∧
    ∀ a, a < addr ∨ addr + s.length ≤ a → (m.writeBytes addr s).read a = m.read a

/-- The two big-endian conversions (R8, R64): `be32` and `enc32` by their arithmetic, `enc64` most significant byte
first, and a word's bytes read back as the word. -/
def Obligations.ByteOrderIsBigEndian : Prop :=
  (∀ b₀ b₁ b₂ b₃ : Byte,
    (be32 b₀ b₁ b₂ b₃).toNat = b₀.toNat * 2 ^ 24 + b₁.toNat * 2 ^ 16 + b₂.toNat * 2 ^ 8 + b₃.toNat) ∧
  (∀ w : Word, (enc32 w).map (·.toNat) =
    [w.toNat / 2 ^ 24, w.toNat / 2 ^ 16 % 256, w.toNat / 2 ^ 8 % 256, w.toNat % 256]) ∧
  (∀ n : BitVec 64, (enc64 n).length = 8 ∧ (enc64 n).foldl (fun acc b => acc * 256 + b.toNat) 0 = n.toNat) ∧
  ∀ ws : List Word, words (encWords ws) = ws ∧ (encWords ws).length = 4 * ws.length

/-- The word operators by their arithmetic and bit by bit: `+32` (R120), `ROTR` (R122), `SHR` (R123), `Ch` (R124),
`Maj` (R125); the four sigma functions by their formulas, bit by bit, and on their rules' examples (R126 to R129). -/
def Obligations.WordOperatorsMatchTheirRules : Prop :=
  (∀ x y z : Word, (add32 x y).toNat = (x.toNat + y.toNat) % 2 ^ 32 ∧ add32 x y = add32 y x ∧
    add32 (add32 x y) z = add32 x (add32 y z)) ∧
  (∀ (n : Nat) (x : Word), 0 < n → n < 32 →
    (rotr n x).toNat = (x.toNat / 2 ^ n) ||| (x.toNat * 2 ^ (32 - n) % 2 ^ 32) ∧
    (∀ i, i < 32 → (rotr n x).getLsbD i = x.getLsbD ((i + n) % 32)) ∧
    (shr n x).toNat = x.toNat / 2 ^ n ∧ ∀ i, 32 - n ≤ i → (shr n x).getLsbD i = false) ∧
  (∀ (x y z : Word) (i : Nat), i < 32 →
    (ch x y z).getLsbD i = (if x.getLsbD i then y.getLsbD i else z.getLsbD i) ∧
    (maj x y z).getLsbD i =
      ((x.getLsbD i && y.getLsbD i) || (x.getLsbD i && z.getLsbD i) || (y.getLsbD i && z.getLsbD i))) ∧
  (∀ x y z : Word, ch x y z = (x &&& y) ^^^ (~~~x &&& z) ∧ ch x y z = z ^^^ (x &&& (y ^^^ z)) ∧
    maj x y z = (x &&& y) ^^^ (x &&& z) ^^^ (y &&& z) ∧ maj x y z = (x &&& y) ||| (z &&& (x ||| y))) ∧
  (∀ x : Word,
    bigSigma0 x = rotr 2 x ^^^ rotr 13 x ^^^ rotr 22 x ∧ bigSigma1 x = rotr 6 x ^^^ rotr 11 x ^^^ rotr 25 x ∧
    smallSigma0 x = rotr 7 x ^^^ rotr 18 x ^^^ shr 3 x ∧ smallSigma1 x = rotr 17 x ^^^ rotr 19 x ^^^ shr 10 x) ∧
  (∀ (x : Word) (i : Nat), i < 32 →
    let bit := fun n => x.getLsbD ((i + n) % 32)
    (bigSigma0 x).getLsbD i = (bit 2 ^^ bit 13 ^^ bit 22) ∧ (bigSigma1 x).getLsbD i = (bit 6 ^^ bit 11 ^^ bit 25) ∧
    (smallSigma0 x).getLsbD i = (bit 7 ^^ bit 18 ^^ (decide (i + 3 < 32) && bit 3)) ∧
    (smallSigma1 x).getLsbD i = (bit 17 ^^ bit 19 ^^ (decide (i + 10 < 32) && bit 10))) ∧
  [(0x00000001 : Word), 0x6a09e667, 0xffffffff].map bigSigma0 = [0x40080400, 0xce20b47e, 0xffffffff] ∧
  [(0x00000001 : Word), 0x510e527f, 0xffffffff].map bigSigma1 = [0x04200080, 0x3587272b, 0xffffffff] ∧
  [(0x00000001 : Word), 0x80000000, 0xffffffff, 0x12345678].map smallSigma0 =
    [0x02004000, 0x11002000, 0x1fffffff, 0xe7fce6ee] ∧
  [(0x00000001 : Word), 0x80000000, 0xffffffff, 0x12345678].map smallSigma1 =
    [0x0000a000, 0x00205000, 0x003fffff, 0xa1f78649]

/-- R151 with R150: the 64 schedule words of a block, the first sixteen its own words and the others by the recurrence;
and the rule's two corner cases, the block of zeros and the block of bytes `0xff`. -/
def Obligations.ScheduleFollowsTheRecurrence : Prop :=
  (∀ b : List Byte, b.length = 64 →
    (schedule b).length = 64 ∧
    (∀ j, j < 16 → (schedule b)[j]? =
      some (be32 (b.getD (4 * j) 0) (b.getD (4 * j + 1) 0) (b.getD (4 * j + 2) 0) (b.getD (4 * j + 3) 0))) ∧
    ∀ t, 16 ≤ t → t < 64 → (schedule b)[t]? =
      some (add32 (add32 (add32 (smallSigma1 ((schedule b).getD (t - 2) 0)) ((schedule b).getD (t - 7) 0))
        (smallSigma0 ((schedule b).getD (t - 15) 0))) ((schedule b).getD (t - 16) 0))) ∧
  schedule (List.replicate 64 0) = List.replicate 64 0 ∧
  ((schedule (List.replicate 64 0xff)).drop 16).take 4 = [0x203ffffc, 0x203ffffc, 0x20099be4, 0x20099be4]

/-- R165: `Compress` is 64 rounds, round `t` with `K[t]` and `W[t]`, on working variables loaded from the state,
followed by the feed-forward, the eight sums of R164; and the rule's two examples. -/
def Obligations.CompressIsSixtyFourRoundsAndFeedForward : Prop :=
  (∀ (s : HashState) (b : List Byte), b.length = 64 →
    let v := (List.range 64).foldl (fun v t => round v (Rom.K.getD t 0) ((schedule b).getD t 0)) s
    (compress s b).toList = [add32 s.a v.a, add32 s.b v.b, add32 s.c v.c, add32 s.d v.d,
      add32 s.e v.e, add32 s.f v.f, add32 s.g v.g, add32 s.h v.h]) ∧
  (compress Rom.IV (List.replicate 64 0)).toList =
    [0xda5698be, 0x17b9b469, 0x62335799, 0x779fbeca, 0x8ce5d491, 0xc0d26243, 0xbafef9ea, 0x1837a9d8] ∧
  (compress ⟨0, 0, 0, 0, 0, 0, 0, 0⟩ (List.replicate 64 0)).toList =
    [0x7ca51614, 0x425c3ba8, 0xce54dd2f, 0xc2020ae7, 0xb6e574d1, 0x98136d0f, 0xae7e26cc, 0xbf0be7a6]

/-- R163: the sums of a round may be formed in any grouping. With `k + w` pre-added, or as the balanced tree, and with
`a` formed as `(T1 + Sigma0(a)) + Maj(a, b, c)`, a round gives the same words. -/
def Obligations.AdderTreesComputeTheRound : Prop :=
  ∀ (v : HashState) (k w : Word),
    let balanced := add32 (add32 (add32 v.h k) w) (add32 (bigSigma1 v.e) (ch v.e v.f v.g))
    let preAdded := add32 (add32 (add32 v.h (bigSigma1 v.e)) (ch v.e v.f v.g)) (add32 k w)
    ∀ t1, t1 = balanced ∨ t1 = preAdded →
      round v k w =
        { a := add32 (add32 t1 (bigSigma0 v.a)) (maj v.a v.b v.c), b := v.a, c := v.b, d := v.c,
          e := add32 v.d t1, f := v.e, g := v.f, h := v.g }

/-- R141: the word-expansion ROM is the schedule of `PADA`, and `KWA` its sums with `K`; compressing `PADA` from the ROM
is `Compress(S, PADA)`. -/
def Obligations.WordExpansionRomIsTheScheduleOfPada : Prop :=
  schedule (encWords Rom.PADA) = Rom.WXA ∧ List.zipWith add32 Rom.K Rom.WXA = Rom.KWA ∧
    ∀ s : HashState, compressSchedule s Rom.WXA = compress s (encWords Rom.PADA)

/-! ### TRANSFORM -/

/-- TRANSFORM compresses its `CNT` blocks into `H` one after another and changes nothing else (R170, R171). -/
def Obligations.TransformCompressesItsBlocks : Prop :=
  ∀ (s : State) (x : Instance), s.current = some x → s.Ready → x.srcLen = 64 * x.cnt → Admitted s.params x.src →
    exec .transform s = .next (s.put { x with
      h := (List.range x.cnt).foldl (fun st i => compress st (s.mem.readBytes (x.srcAddr + 64 * i) 64)) x.h
      err := .ok })

/-- R172: a TRANSFORM of `n + m` blocks leaves in `H` what a TRANSFORM of the first `n` followed by one of the other
`m` leaves, and all three complete. -/
def Obligations.TransformIsCumulative : Prop :=
  ∀ (s : State) (x : Instance) (n m : Nat), s.current = some x → s.Ready →
    Admitted s.params ⟨x.srcAddr, 64 * (n + m)⟩ →
    ∃ t u v y z w,
      exec .transform (s.put { x with srcLen := 64 * (n + m), cnt := n + m }) = .next t ∧ t.current = some y ∧
      exec .transform (s.put { x with srcLen := 64 * n, cnt := n }) = .next u ∧ u.current = some z ∧
      exec .transform (u.put { z with srcAddr := x.srcAddr + 64 * n, srcLen := 64 * m, cnt := m }) = .next v ∧
      v.current = some w ∧ y.err = .ok ∧ z.err = .ok ∧ w.err = .ok ∧ w.h = y.h

/-! ### The double-hash pipeline -/

/-- The D64-type command of width `N` stores, for each lane `l`, `D64fn` of the 64 bytes at `SRC_ADDR + 64 l` at
`DST_ADDR + 32 l`, and changes nothing else (R187, R185, R188, R189, R190). -/
def Obligations.D64CommandsStoreEachLanesDoubleHash : Prop :=
  ∀ (i : Instr) (n : Nat) (s : State) (x : Instance),
    (i, n) ∈ [(Instr.d64, 1), (.d64Way2, 2), (.d64Way4, 4), (.d64Way8, 8)] → s.current = some x → s.Ready →
    s.cfg.installed n = true → x.srcLen = 64 * n → x.dstLen = 32 * n → Admitted s.params x.src →
    Admitted s.params x.dst → Disjoint x.src x.dst →
    exec i s = .next { s.put { x with err := .ok } with
      mem := s.mem.writeBytes x.dstAddr
        ((List.range n).flatMap fun l => d64fn (s.mem.readBytes (x.srcAddr + 64 * l) 64)) }

/-- R182: `D64fn` is three compressions, the second of `PADA`, the third of the intermediate digest followed by `PADB`;
equivalently the third block has `W[0..7]` = `S2` and `W[8..15]` = `PADB`. -/
def Obligations.D64fnIsThreeCompressions : Prop :=
  ∀ x : List Byte, x.length = 64 →
    let s2 := compress (compress Rom.IV x) (encWords Rom.PADA)
    d64fn x = digest (compress Rom.IV (digest s2 ++ encWords Rom.PADB)) ∧ (d64fn x).length = 32 ∧
      words (digest s2 ++ encWords Rom.PADB) = s2.toList ++ Rom.PADB ∧
      encWords Rom.PADA = [0x80] ++ List.replicate 55 0 ++ [0, 0, 0, 0, 0, 0, 2, 0] ∧
      encWords Rom.PADB = [0x80] ++ List.replicate 23 0 ++ [0, 0, 0, 0, 0, 0, 1, 0]

/-- R78: after a completed command that writes several digests, digest `k` at `DST_ADDR + 32 k` is the double hash of
the 64 bytes at `SRC_ADDR + 64 k`. -/
def Obligations.DigestsStandInTheOrderOfTheBlocks : Prop :=
  ∀ (i : Instr) (n : Nat) (s t : State) (x y : Instance) (k : Nat), s.current = some x →
    (i, n) ∈ [(Instr.d64, 1), (.d64Way2, 2), (.d64Way4, 4), (.d64Way8, 8), (.sha256d64, x.cnt)] →
    exec i s = .next t → t.current = some y → y.err = .ok → k < n →
    t.mem.readBytes (x.dstAddr + 32 * k) 32 = sha256 (sha256 (s.mem.readBytes (x.srcAddr + 64 * k) 64))

/-! ### The batch driver -/

/-- R243: for every `CNT` and every `CFG` with `VALID` = 1, SHA256D64 leaves at its destination `D64fn` of each block in
order, whichever widths are installed, and changes nothing else. -/
def Obligations.BatchEqualsScalarDoubleHashes : Prop :=
  ∀ (s : State) (x : Instance), s.current = some x → s.Ready → x.srcLen = 64 * x.cnt → x.dstLen = 32 * x.cnt →
    Admitted s.params x.src → Admitted s.params x.dst → Disjoint x.src x.dst →
    exec .sha256d64 s = .next { s.put { x with err := .ok } with
      mem := s.mem.writeBytes x.dstAddr
        ((List.range x.cnt).flatMap fun k => d64fn (s.mem.readBytes (x.srcAddr + 64 * k) 64)) }

/-- R241: the greedy plan's recursion; its widths never increase and sum to `CNT`; the rule's table of examples; and
with all widths installed `floor(n / 8) + popcount(n mod 8)` groups. -/
def Obligations.PlanIsGreedy : Prop :=
  (∀ (c : Cfg) (n : Nat), plan c n =
    if 8 ≤ n ∧ c.w8 = true then 8 :: plan c (n - 8)
    else if 4 ≤ n ∧ c.w4 = true then 4 :: plan c (n - 4)
    else if 2 ≤ n ∧ c.w2 = true then 2 :: plan c (n - 2)
    else if 1 ≤ n then 1 :: plan c (n - 1)
    else []) ∧
  (∀ (c : Cfg) (n : Nat), (plan c n).Pairwise (fun v w => w ≤ v) ∧ (plan c n).sum = n) ∧
  (∀ row ∈ ([(0, true, true, true, []), (1, true, true, true, [1]), (7, true, true, false, [4, 2, 1]),
      (15, true, true, true, [8, 4, 2, 1]), (16, true, true, true, [8, 8]), (11, false, false, true, [8, 1, 1, 1]),
      (3, false, true, true, [1, 1, 1]), (6, false, true, false, [4, 1, 1]), (9, true, false, true, [8, 1]),
      (7, false, false, false, [1, 1, 1, 1, 1, 1, 1])] : List (Nat × Bool × Bool × Bool × List Nat)),
    plan ⟨true, false, true, row.2.1, row.2.2.1, row.2.2.2.1⟩ row.1 = row.2.2.2.2) ∧
  ∀ (c : Cfg) (n : Nat), c.w2 = true → c.w4 = true → c.w8 = true →
    (plan c n).length = n / 8 + (n % 8 / 4 + n % 4 / 2 + n % 2)

/-! ### DISPATCH -/

/-- The first DISPATCH with a passing Self-Test publishes the selected table and the width bits in one step, hands the
host the table's summary and changes nothing else (R200, R202, R204, R212). -/
def Obligations.FirstDispatchPublishesTheTable : Prop :=
  ∀ (s : State) (x : Instance), s.current = some x → s.cfg.dead = false → s.cfg.valid = false →
    s.params.selftestOk = true →
    ∃ c, exec .dispatch s = .next { s.put { x with err := .ok } with
        abt := selectTable s.params
        cfg := c
        received := .summary s.sel (selectTable s.params) :: s.received } ∧
      c.valid = true ∧ c.dead = false ∧ c.w1 = true ∧ (c.w2 = true ↔ Available s.params .d64x2) ∧
      (c.w4 = true ↔ Available s.params .d64x4) ∧ (c.w8 = true ↔ Available s.params .d64x8)

/-- R203: a repeated DISPATCH changes nothing, sets `STATUS.ERR` to 0 and returns the same string; after a failed one
it faults with `E_DEAD`. -/
def Obligations.RepeatedDispatchIsANoOp : Prop :=
  ∀ (s : State) (x : Instance), s.current = some x →
    (s.cfg.dead = false → s.cfg.valid = true →
      ∃ r, exec .dispatch s = .next { s.put { x with err := .ok } with received := r :: s.received } ∧
        r.text = some (Config.summary s.abt)) ∧
    (s.cfg.dead = true → exec .dispatch s = .next (s.put { x with err := .dead }))

/-- R265: a DISPATCH whose Self-Test fails reports `E_SELFTEST` once, on the issuing instance, sets `CFG.DEAD` and
publishes nothing; afterwards every command on every instance reports `E_DEAD`. -/
def Obligations.FailedSelfTestKillsTheEngine : Prop :=
  ∀ (s : State) (x : Instance), s.current = some x → s.cfg.dead = false → s.cfg.valid = false →
    s.params.selftestOk = false →
    ∃ t, exec .dispatch s = .next t ∧
      t = { s.put { x with err := .selftest } with cfg := { s.cfg with dead := true } } ∧
      ∀ (i : Instr) (k : Nat) (y : Instance), t.insts[k]? = some y →
        exec i { t with sel := k } = .next (State.put { t with sel := k } { y with err := .dead })

/-- R201: each slot holds the fastest satisfied candidate for it or is empty if there is none; the core slot and the
width-1 slot are never empty. -/
def Obligations.SelectionTakesTheFastestSatisfiedCandidate : Prop :=
  (∀ (p : Params) (slot : Slot),
    (tableSlot (selectTable p) slot = none ↔ ¬Available p slot) ∧
    ∀ id, tableSlot (selectTable p) slot = some id →
      ∃ c ∈ p.candidates, c.id = id ∧ slot ∈ c.slots ∧ reqHolds p.cap c.requires = true ∧
        ∀ d ∈ p.candidates, slot ∈ d.slots → reqHolds p.cap d.requires = true → c.rank ≤ d.rank) ∧
  ∀ p : Params, p.Wf → (selectTable p).core ≠ none ∧ (selectTable p).d64x1 ≠ none

/-- The known-answer checks of R206 hold when every backend is the function of the spec (R207), whatever table is
tested. A core, a width-1 D64 backend or a D64 backend of a filled wider slot that gives a wrong answer on a tested
input makes them fail. They look at the tested inputs only, so that a backend wrong elsewhere passes (R207). This is a
statement about the checks as defined: `exec` takes the Self-Test's result from `SELFTEST_OK` (log 15). -/
def Obligations.KnownAnswerTestDetectsWrongAnswersOnTestedInputs : Prop :=
  (∀ (text : List Byte) (t : BackendTable), text.length = 640 →
    knownAnswerTest text t Backends.faithful = true) ∧
  (∀ (text : List Byte) (t : BackendTable) (b : Backends) (i : Nat), i ≤ 8 →
    b.core Rom.IV text i ≠ compressBlocks i Rom.IV text → knownAnswerTest text t b = false) ∧
  (∀ (text : List Byte) (t : BackendTable) (b : Backends), b.d64 1 (text.take 64) ≠ d64fn (text.take 64) →
    knownAnswerTest text t b = false) ∧
  (∀ (text : List Byte) (t : BackendTable) (b : Backends) (n : Nat) (slot : Slot),
    (n, slot) ∈ [(2, Slot.d64x2), (4, .d64x4), (8, .d64x8)] → tableSlot t slot ≠ none →
    b.d64 n (List.replicate n (text.take 64)).flatten ≠ (List.replicate n (d64fn (text.take 64))).flatten →
    knownAnswerTest text t b = false) ∧
  ∀ (text : List Byte) (t : BackendTable) (b c : Backends),
    (∀ i, i ≤ 8 → b.core Rom.IV text i = c.core Rom.IV text i) →
    b.d64 1 (text.take 64) = c.d64 1 (text.take 64) →
    (∀ n ∈ [2, 4, 8], b.d64 n (List.replicate n (text.take 64)).flatten =
      c.d64 n (List.replicate n (text.take 64)).flatten) →
    knownAnswerTest text t b = knownAnswerTest text t c

/-! ### The hasher -/

/-- R221: H_RESET returns the hasher to the fresh state in every hasher state, and its two faults. -/
def Obligations.HResetReturnsToFresh : Prop :=
  ∀ (s : State) (x : Instance), s.current = some x →
    (s.cfg.dead = false → s.cfg.valid = true →
      exec .hReset s = .next (s.put { x with h := Rom.IV, bufLen := 0, total := 0, hst := .fresh, err := .ok })) ∧
    (s.cfg.dead = true → exec .hReset s = .next (s.put { x with err := .dead })) ∧
    (s.cfg.dead = false → s.cfg.valid = false → exec .hReset s = .next (s.put { x with err := .notDispatched }))

/-- H_WRITE appends its bytes: whole blocks of the buffered bytes and the new ones are compressed at once, the rest is
kept (R223). It changes nothing else. -/
def Obligations.HWriteAbsorbsItsBytes : Prop :=
  ∀ (s : State) (x : Instance), s.current = some x → s.Ready → x.hst ≠ .finalized → Admitted s.params x.src →
    x.total.toNat + x.srcLen < 2 ^ 61 →
    let stream := x.buffered ++ s.mem.readBytes x.srcAddr x.srcLen
    let q := stream.length / 64
    ∃ buf bufLen total,
      exec .hWrite s = .next (s.put { x with
        h := (List.range q).foldl (fun st i => compress st ((stream.drop (64 * i)).take 64)) x.h
        buf := buf
        bufLen := bufLen
        total := total
        hst := .accumulating
        err := .ok }) ∧
      bufLen.val = stream.length - 64 * q ∧ buf.toList.take bufLen.val = stream.drop (64 * q) ∧
      total.toNat = x.total.toNat + x.srcLen

/-- H_FINALIZE compresses the one or two padded blocks, stores the digest, leaves its words in `H` and the hasher
finalized, and changes nothing else (R225). -/
def Obligations.HFinalizeStoresTheDigest : Prop :=
  ∀ (s : State) (x : Instance), s.current = some x → s.Ready → x.hst ≠ .finalized → x.dstLen = 32 →
    Admitted s.params x.dst →
    let tail := x.buffered ++ pad x.total.toNat
    let final := (List.range (tail.length / 64)).foldl (fun st i => compress st ((tail.drop (64 * i)).take 64)) x.h
    exec .hFinalize s = .next { s.put { x with h := final, hst := .finalized, err := .ok } with
      mem := s.mem.writeBytes x.dstAddr (digest final) }

/-- R220: the transitions of the hasher state, in every command and in every host register write; and `FRESH` and
`ACCUMULATING` behave identically in every command (whatever `TOTAL` is), except that a command which leaves the hasher
state alone leaves the one it found. -/
def Obligations.HasherStateFollowsItsTable : Prop :=
  (∀ (i : Instr) (s t : State) (x y : Instance), s.current = some x → exec i s = .next t → t.current = some y →
    (y.err ≠ .ok → y.hst = x.hst) ∧
    (y.err = .ok →
      (i = .hReset → y.hst = .fresh) ∧
      (i = .hWrite → x.hst ≠ .finalized ∧ y.hst = .accumulating) ∧
      (i = .hFinalize → x.hst ≠ .finalized ∧ y.hst = .finalized) ∧
      (i ∉ [Instr.hReset, .hWrite, .hFinalize] → y.hst = x.hst))) ∧
  (∀ (i : Instr) (s : State) (x : Instance), i = .hWrite ∨ i = .hFinalize → s.current = some x → s.Ready →
    x.hst = .finalized → exec i s = .next (s.put { x with err := .hasherState })) ∧
  (∀ (s t : State) (agent k n v : Nat) (rest : List HostAction), s.script = .wr agent k n v :: rest → n ≠ 15 →
    step s = .next t → t.insts.map (·.hst) = s.insts.map (·.hst)) ∧
  ∀ (i : Instr) (s : State) (x : Instance), s.current = some x →
    ∃ t y, exec i (s.put { x with hst := .fresh }) = .next t ∧ t.current = some y ∧
      (exec i (s.put { x with hst := .accumulating }) = .next t ∨
        y.hst = .fresh ∧ exec i (s.put { x with hst := .accumulating }) = .next (t.put { y with hst := .accumulating }))

/-- R222: the padding of a message of `L` bytes, `L < 2^61`. -/
def Obligations.PaddingCompletesTheBlocks : Prop :=
  ∀ len : Nat, len < 2 ^ 61 →
    ∃ z field, pad len = [0x80] ++ List.replicate z 0 ++ field ∧ z < 64 ∧ (z + len) % 64 = 55 ∧ field.length = 8 ∧
      field.foldl (fun acc b => acc * 256 + b.toNat) 0 = 8 * len ∧ 9 ≤ (pad len).length ∧ (pad len).length ≤ 72 ∧
      (len % 64 ≤ 55 → z = 55 - len % 64 ∧ len % 64 + (pad len).length = 64) ∧
      (56 ≤ len % 64 → z = 119 - len % 64 ∧ len % 64 + (pad len).length = 128)

/-- The whole message costs `floor((L + 8) / 64) + 1` compressions, those of the writes and of the tail together
(R226). -/
def Obligations.CompressionCountOfAMessage : Prop :=
  ∀ len : Nat, len / 64 + (len % 64 + (pad len).length) / 64 = (len + 8) / 64 + 1

/-- R228: two H_WRITEs of consecutive pieces of a buffer leave the hasher as one H_WRITE of the whole does, and all three
complete, so that the digest does not depend on how the bytes are split. -/
def Obligations.WritesAreSplitInvariant : Prop :=
  ∀ (s : State) (x : Instance) (n m : Nat), s.current = some x → s.Ready → x.hst ≠ .finalized →
    x.bufLen.val = x.total.toNat % 64 → Admitted s.params ⟨x.srcAddr, n + m⟩ → x.total.toNat + (n + m) < 2 ^ 61 →
    ∃ t u v y z w,
      exec .hWrite (s.put { x with srcLen := n + m }) = .next t ∧ t.current = some y ∧
      exec .hWrite (s.put { x with srcLen := n }) = .next u ∧ u.current = some z ∧
      exec .hWrite (u.put { z with srcAddr := x.srcAddr + n, srcLen := m }) = .next v ∧ v.current = some w ∧
      y.err = .ok ∧ z.err = .ok ∧ w.err = .ok ∧
      w.h = y.h ∧ w.buffered = y.buffered ∧ w.bufLen = y.bufLen ∧ w.total = y.total ∧ w.hst = y.hst

/-- R228: after writes `M_1, ..., M_k` from FRESH the whole hasher state is a function of `M = M_1 || ... || M_k` alone:
every write completes, empty ones too, `H` is the fold over the whole blocks of `M`, the buffer holds the rest, `TOTAL` is
`M`'s length. The host may refill its buffers between the writes. And H_FINALIZE then stores `SHA256(M)` (R227). -/
def Obligations.HasherComputesSha256OfAllWrites : Prop :=
  ∀ (s : State) (x : Instance) (ws : List HashWrite), s.current = some x → s.Ready → x.h = Rom.IV → x.bufLen = 0 →
    x.total = 0 → x.hst = .fresh → (∀ w ∈ ws, Admitted s.params w.buf) →
    let m := ws.flatMap HashWrite.bytes
    let mem := (ws.map (·.mem)).getLastD s.mem
    m.length < 2 ^ 61 →
    ∃ t y, s.HWritesComplete ws t ∧ t.current = some y ∧ t.mem = mem ∧
      y.h = compressBlocks (m.length / 64) Rom.IV m ∧ y.buffered = m.drop (64 * (m.length / 64)) ∧
      y.total.toNat = m.length ∧ y.hst = (if ws = [] then .fresh else .accumulating) ∧
      (x.dstLen = 32 → Admitted s.params x.dst →
        ∃ u z, exec .hFinalize t = .next u ∧ u.current = some z ∧ z.err = .ok ∧
          u.mem = mem.writeBytes x.dstAddr (sha256 m) ∧ digest z.h = sha256 m)

/-- R229: over the same bytes an H_WRITE of `64 n` bytes from an empty buffer changes `H` exactly as a TRANSFORM of `n`
blocks does, and adds `64 n` to `TOTAL`, both completing; and `D64fn(x) = SHA256(SHA256(x))` for every 64-byte `x`. -/
def Obligations.HasherAgreesWithTransformAndD64 : Prop :=
  (∀ (s : State) (x : Instance), s.current = some x → s.Ready → x.hst ≠ .finalized → x.bufLen = 0 →
    x.srcLen = 64 * x.cnt → Admitted s.params x.src → x.total.toNat + x.srcLen < 2 ^ 61 →
    ∃ t u y z, exec .hWrite s = .next t ∧ t.current = some y ∧ exec .transform s = .next u ∧ u.current = some z ∧
      y.err = .ok ∧ z.err = .ok ∧ y.h = z.h ∧ y.total.toNat = x.total.toNat + 64 * x.cnt ∧ y.bufLen = 0 ∧ z.total = x.total) ∧
  ∀ x : List Byte, x.length = 64 → d64fn x = sha256 (sha256 x)

/-- R264: an H_WRITE that would bring `TOTAL` to `2^61` or more appends nothing and faults with `E_TOO_LONG`, one byte
less completes, and after the fault the hasher can still be finalized. -/
def Obligations.TooLongMessageIsRefusedExactly : Prop :=
  ∀ (s : State) (x : Instance), s.current = some x → s.Ready → x.hst ≠ .finalized → Admitted s.params x.src →
    (2 ^ 61 ≤ x.total.toNat + x.srcLen →
      exec .hWrite s = .next (s.put { x with err := .tooLong }) ∧
      (x.dstLen = 32 → Admitted s.params x.dst →
        ∃ t y, exec .hFinalize (s.put { x with err := .tooLong }) = .next t ∧ t.current = some y ∧ y.err = .ok)) ∧
    (x.total.toNat + x.srcLen < 2 ^ 61 →
      ∃ t y, exec .hWrite s = .next t ∧ t.current = some y ∧ y.err = .ok ∧
        y.total.toNat = x.total.toNat + x.srcLen)

/-! ### Status and configuration words -/

/-- R34 and R35: the bits of `CFG` and `STATUS`, with all other bits reading 0, and the codes of R251 in `ERR`. -/
def Obligations.StatusAndCfgBits : Prop :=
  (∀ (c : Cfg) (i : Nat), c.word.getLsbD i = ([c.valid, c.dead, c.w1, c.w2, c.w4, c.w8][i]?).getD false) ∧
  (∀ x : Instance, x.statusWord.toNat = x.hst.code.toNat * 256 + x.err.code.toNat ∧ x.hst.code.toNat ≤ 2 ∧
    x.err.code.toNat ≤ 0x0B) ∧
  [ErrCode.ok, .illegalCmd, .dead, .notDispatched, .widthUnavailable, .hasherState, .length, .range, .bus, .overlap,
    .tooLong, .selftest].map (fun e => e.code.toNat) = List.range 12
end

