-- ==== Sys2Proof/Laws/Compression.lean ====
section
/-! SUPPORT. Byte order, folding over blocks, padding, lane groups and plans (spec 00_scope.md R8, 45_hasher.md R222,
R227, 43_d64.md R192, 46_batch_driver.md R241). -/

namespace Sys2Proof.Machine

/-! ### Byte order -/

@[simp] theorem enc32_length (w : Word) : (enc32 w).length = 4 := rfl

@[simp] theorem enc64_length (n : BitVec 64) : (enc64 n).length = 8 := rfl

@[simp] theorem encWords_length (ws : List Word) : (encWords ws).length = 4 * ws.length := by
  induction ws with
  | nil => rfl
  | cons w ws ih =>
    rw [encWords, List.flatMap_cons, List.length_append, enc32_length, List.length_cons]
    rw [encWords] at ih
    omega

@[simp] theorem digest_length (s : HashState) : (digest s).length = 32 := by
  simp [digest, HashState.toList]

@[simp] theorem zeroBytes_length (n : Nat) : (zeroBytes n).length = n := by simp [zeroBytes]

/-- Reading a word's own bytes gives the word back (R8, R182). -/
theorem be32_enc32 (w : Word) :
    be32 (w.extractLsb' 24 8) (w.extractLsb' 16 8) (w.extractLsb' 8 8) (w.extractLsb' 0 8) = w := by
  apply BitVec.eq_of_getLsbD_eq
  intro i hi
  simp only [be32, BitVec.getLsbD_append, BitVec.getLsbD_extractLsb']
  have : i < 32 := hi
  by_cases h0 : i < 8
  · simp [h0]
  · by_cases h1 : i < 16
    · simp [h0, show i - 8 < 8 by omega, show 8 + (i - 8) = i by omega]
    · by_cases h2 : i < 24
      · simp [h0, show ¬i - 8 < 8 by omega, show i - 8 - 8 < 8 by omega, show 16 + (i - 8 - 8) = i by omega]
      · simp [h0, show ¬i - 8 < 8 by omega, show ¬i - 8 - 8 < 8 by omega, show i - 8 - 8 - 8 < 8 by omega,
          show 24 + (i - 8 - 8 - 8) = i by omega]

/-- Block load undoes `enc32` word by word (R8, R182). -/
theorem words_encWords (ws : List Word) : words (encWords ws) = ws := by
  induction ws with
  | nil => rfl
  | cons w ws ih =>
    rw [encWords, List.flatMap_cons]
    show be32 _ _ _ _ :: words (encWords ws) = w :: ws
    rw [be32_enc32, ih]

/-! ### Folding over blocks -/

/-- Compressing `n + m` blocks is compressing `n` and then `m` more (R172). -/
theorem compressBlocks_add (n m : Nat) (s : HashState) (data : List Byte) :
    compressBlocks (n + m) s data = compressBlocks m (compressBlocks n s data) (data.drop (64 * n)) := by
  induction n generalizing s data with
  | zero => simp [compressBlocks]
  | succ n ih =>
    rw [Nat.succ_add, compressBlocks, ih, compressBlocks, List.drop_drop,
      show 64 + 64 * n = 64 * (n + 1) by omega]

/-- Only the first `64 n` bytes count. -/
theorem compressBlocks_append (n : Nat) (s : HashState) (data more : List Byte) (h : 64 * n ≤ data.length) :
    compressBlocks n s (data ++ more) = compressBlocks n s data := by
  induction n generalizing s data with
  | zero => rfl
  | succ n ih =>
    have h64 : 64 ≤ data.length := by omega
    rw [compressBlocks, compressBlocks, List.take_append_of_le_length h64, List.drop_append_of_le_length h64,
      ih _ _ (by simp; omega)]

theorem compressBlocks_take (n : Nat) (s : HashState) (data : List Byte) :
    compressBlocks n s (data.take (64 * n)) = compressBlocks n s data := by
  induction n generalizing s data with
  | zero => rfl
  | succ n ih =>
    rw [compressBlocks, compressBlocks, List.take_take, List.drop_take,
      show min 64 (64 * (n + 1)) = 64 by omega, show 64 * (n + 1) - 64 = 64 * n by omega, ih]

/-! ### Padding -/

theorem padZeros_lt (len : Nat) : padZeros len < 64 := Nat.mod_lt _ (by decide)

/-- `z` is the remainder of `55 - len` (R222). -/
theorem padZeros_mod (len : Nat) : (padZeros len + len) % 64 = 55 := by
  unfold padZeros; omega

/-- `len(Pad(L)) = 9 + z` (R222). -/
@[simp] theorem pad_length (len : Nat) : (pad len).length = 9 + padZeros len := by
  simp [pad]; omega

/-! ### Lane groups -/

@[simp] theorem laneBlocks_length (n : Nat) (data : List Byte) : (laneBlocks n data).length = n := by
  induction n generalizing data with
  | zero => rfl
  | succ n ih => simp [laneBlocks, ih]

/-- The lanes of a group are independent: the group's output is `D64fn` of each lane's own block, in lane order (R166,
R187, R192). -/
theorem laneGroup_eq (n : Nat) (data : List Byte) : laneGroup n data = (laneBlocks n data).flatMap d64fn := by
  have h : ∀ bs : List (List Byte),
      (LaneBank.compress (LaneBank.fresh bs.length)
          ((LaneBank.compress (LaneBank.compress (LaneBank.fresh bs.length) bs)
              (List.replicate bs.length (encWords Rom.PADA))).map fun st => digest st ++ encWords Rom.PADB)).flatMap
          digest =
        bs.flatMap d64fn := by
    intro bs
    induction bs with
    | nil => rfl
    | cons b bs ih =>
      simp only [LaneBank.compress, LaneBank.fresh, List.length_cons, List.replicate_succ, List.zipWith_cons_cons,
        List.map_cons, List.flatMap_cons] at ih ⊢
      rw [ih]; rfl
  have := h (laneBlocks n data)
  rw [laneBlocks_length] at this
  exact this

@[simp] theorem d64fn_length (x : List Byte) : (d64fn x).length = 32 := digest_length _

theorem flatMap_d64fn_length (bs : List (List Byte)) : (bs.flatMap d64fn).length = 32 * bs.length := by
  induction bs with
  | nil => rfl
  | cons b bs ih => simp only [List.flatMap_cons, List.length_append, List.length_cons, d64fn_length, ih]; omega

@[simp] theorem laneGroup_length (n : Nat) (data : List Byte) : (laneGroup n data).length = 32 * n := by
  rw [laneGroup_eq, flatMap_d64fn_length, laneBlocks_length]

theorem laneBlocks_add (n m : Nat) (data : List Byte) :
    laneBlocks (n + m) data = laneBlocks n data ++ laneBlocks m (data.drop (64 * n)) := by
  induction n generalizing data with
  | zero => simp [laneBlocks]
  | succ n ih =>
    rw [Nat.succ_add, laneBlocks, ih, laneBlocks, List.cons_append, List.drop_drop,
      show 64 + 64 * n = 64 * (n + 1) by omega]

/-- Lane `l`'s block is the 64 bytes at offset `64 l` (R152, R187). -/
theorem laneBlocks_getElem (n : Nat) (data : List Byte) (l : Nat) (h : l < (laneBlocks n data).length) :
    (laneBlocks n data)[l] = (data.drop (64 * l)).take 64 := by
  induction n generalizing data l with
  | zero => simp [laneBlocks] at h
  | succ n ih =>
    cases l with
    | zero => simp [laneBlocks]
    | succ l =>
      have := ih (data.drop 64) l (by simpa using h)
      simp only [laneBlocks, List.getElem_cons_succ, this, List.drop_drop]
      rw [show 64 + 64 * l = 64 * (l + 1) by omega]

/-- The digest of block `l` stands at offset `32 l` (R78). -/
theorem flatMap_d64fn_slice (bs : List (List Byte)) (l : Nat) (h : l < bs.length) :
    ((bs.flatMap d64fn).drop (32 * l)).take 32 = d64fn bs[l] := by
  induction bs generalizing l with
  | nil => simp at h
  | cons b bs ih =>
    cases l with
    | zero => simp [List.flatMap_cons]
    | succ l =>
      rw [List.flatMap_cons, List.getElem_cons_succ, show 32 * (l + 1) = (d64fn b).length + 32 * l by simp; omega,
        ← List.drop_drop, List.drop_left, ih l (by simpa using h)]

/-! ### Plans -/

theorem nextWidth_pos (c : Cfg) (n : Nat) : 0 < nextWidth c n := by
  unfold nextWidth; split_ifs <;> decide

theorem nextWidth_le {c : Cfg} {n : Nat} (h : 0 < n) : nextWidth c n ≤ n := by
  unfold nextWidth; split_ifs <;> omega

/-- The widths of a plan sum to the number of blocks (R241). -/
theorem planWithin_sum (c : Cfg) (bound n : Nat) (h : n ≤ bound) : (planWithin c bound n).sum = n := by
  induction bound generalizing n with
  | zero => simp [planWithin]; omega
  | succ bound ih =>
    cases n with
    | zero => rfl
    | succ n =>
      have h1 := nextWidth_pos c (n + 1)
      have h2 := nextWidth_le (c := c) (n := n + 1) (Nat.succ_pos n)
      rw [planWithin, List.sum_cons, ih _ (by omega)]
      omega

/-- A bound beyond the number of blocks changes nothing. -/
theorem planWithin_eq (c : Cfg) (bound n : Nat) (h : n ≤ bound) : planWithin c bound n = plan c n := by
  unfold plan
  suffices H : ∀ k b b' : Nat, k ≤ b → k ≤ b' → planWithin c b k = planWithin c b' k from H n bound n h (Nat.le_refl n)
  intro k
  induction k using Nat.strong_induction_on with
  | _ k ih =>
    intro b b' hb hb'
    cases k with
    | zero => cases b <;> cases b' <;> rfl
    | succ k =>
      obtain ⟨b, rfl⟩ : ∃ d, b = d + 1 := ⟨b - 1, by omega⟩
      obtain ⟨b', rfl⟩ : ∃ d, b' = d + 1 := ⟨b' - 1, by omega⟩
      have := nextWidth_pos c (k + 1)
      rw [planWithin, planWithin, ih (k + 1 - nextWidth c (k + 1)) (by omega) b b' (by omega) (by omega)]

@[simp] theorem plan_zero (c : Cfg) : plan c 0 = [] := rfl

/-- The recursion of R241. -/
theorem plan_succ (c : Cfg) (n : Nat) :
    plan c (n + 1) = nextWidth c (n + 1) :: plan c (n + 1 - nextWidth c (n + 1)) := by
  have := nextWidth_pos c (n + 1)
  rw [plan, planWithin, planWithin_eq c n _ (by omega)]

/-- Working the blocks group by group gives `D64fn` of each block in order (R243). -/
theorem runPlan_eq (ws : List Nat) (data : List Byte) : runPlan ws data = (laneBlocks ws.sum data).flatMap d64fn := by
  induction ws generalizing data with
  | nil => rfl
  | cons n ws ih => rw [runPlan, ih, laneGroup_eq, List.sum_cons, laneBlocks_add, List.flatMap_append]

theorem runPlan_length (ws : List Nat) (data : List Byte) : (runPlan ws data).length = 32 * ws.sum := by
  rw [runPlan_eq, flatMap_d64fn_length, laneBlocks_length]

/-! ### The hasher's buffer -/

/-- What was stored in the buffer is what it now holds. -/
theorem storeBuf_take {buf : Vector Byte 64} {bytes : List Byte} (h : bytes.length ≤ 64) :
    (storeBuf buf bytes).toList.take bytes.length = bytes := by
  simp [storeBuf, Vector.toList, List.take_take, Nat.min_eq_left h]

@[simp] theorem buffered_length (x : Instance) : x.buffered.length = x.bufLen.val := by
  simp [Instance.buffered]

end Sys2Proof.Machine
end

