-- ==== Sys2Proof/Laws/State.lean ====
section
/-! SUPPORT. What each update of the state does to each field. -/

namespace Sys2Proof.Machine

section Put
variable (s : State) (x : Instance)

@[simp] theorem State.put_params : (s.put x).params = s.params := rfl
@[simp] theorem State.put_insts : (s.put x).insts = s.insts.set s.sel x := rfl
@[simp] theorem State.put_abt : (s.put x).abt = s.abt := rfl
@[simp] theorem State.put_cfg : (s.put x).cfg = s.cfg := rfl
@[simp] theorem State.put_mem : (s.put x).mem = s.mem := rfl
@[simp] theorem State.put_script : (s.put x).script = s.script := rfl
@[simp] theorem State.put_sel : (s.put x).sel = s.sel := rfl
@[simp] theorem State.put_received : (s.put x).received = s.received := rfl

@[simp] theorem State.commit_params : (s.commit x).params = s.params := rfl
@[simp] theorem State.commit_insts : (s.commit x).insts = s.insts.set s.sel { x with err := .ok } := rfl
@[simp] theorem State.commit_abt : (s.commit x).abt = s.abt := rfl
@[simp] theorem State.commit_cfg : (s.commit x).cfg = s.cfg := rfl
@[simp] theorem State.commit_mem : (s.commit x).mem = s.mem := rfl
@[simp] theorem State.commit_script : (s.commit x).script = s.script := rfl
@[simp] theorem State.commit_sel : (s.commit x).sel = s.sel := rfl
@[simp] theorem State.commit_received : (s.commit x).received = s.received := rfl

end Put

section Raise
variable (s : State) (x : Instance) (e : ErrCode)

@[simp] theorem State.raise_params : (s.raise x e).params = s.params := by unfold State.raise; split <;> rfl
@[simp] theorem State.raise_insts : (s.raise x e).insts = s.insts.set s.sel { x with err := e } := by
  unfold State.raise; split <;> rfl
@[simp] theorem State.raise_abt : (s.raise x e).abt = s.abt := by unfold State.raise; split <;> rfl
@[simp] theorem State.raise_mem : (s.raise x e).mem = s.mem := by unfold State.raise; split <;> rfl
@[simp] theorem State.raise_script : (s.raise x e).script = s.script := by unfold State.raise; split <;> rfl
@[simp] theorem State.raise_sel : (s.raise x e).sel = s.sel := by unfold State.raise; split <;> rfl
@[simp] theorem State.raise_received : (s.raise x e).received = s.received := by unfold State.raise; split <;> rfl

theorem State.raise_cfg :
    (s.raise x e).cfg = if e = .selftest then { s.cfg with dead := true } else s.cfg := by
  unfold State.raise; split <;> rfl

/-- A fault other than `E_SELFTEST` is an update of the instance only. -/
theorem State.raise_eq_put {e : ErrCode} (h : e ≠ .selftest) : s.raise x e = s.put { x with err := e } := by
  simp [State.raise, h]

end Raise

/-- The current instance exists when `sel` is one of the instances' numbers. -/
theorem State.current_of_lt {s : State} (h : s.sel < s.insts.length) : s.current = some s.insts[s.sel] := by
  simp [State.current, h]

theorem State.sel_lt_of_current {s : State} {x : Instance} (h : s.current = some x) : s.sel < s.insts.length := by
  unfold State.current at h
  exact (List.getElem?_eq_some_iff.mp h).1

theorem State.current_mem {s : State} {x : Instance} (h : s.current = some x) : x ∈ s.insts := by
  unfold State.current at h
  exact List.mem_of_getElem? h

/-- After an update of the current instance, a state whose instances are the updated ones has it as current. -/
theorem current_of_set {s t : State} {x y : Instance} (h : s.current = some x) (hi : t.insts = s.insts.set s.sel y)
    (hs : t.sel = s.sel) : t.current = some y := by
  have := State.sel_lt_of_current h
  simp [State.current, hi, hs, this]

/-- An update of the current instance leaves every other instance alone (R42). -/
theorem other_of_set {s t : State} {y : Instance} (hi : t.insts = s.insts.set s.sel y) {j : Nat} (hj : j ≠ s.sel) :
    t.insts[j]? = s.insts[j]? := by
  simp [hi, List.getElem?_set_ne (Ne.symm hj)]

end Sys2Proof.Machine
end

