-- ==== Sys2Proof/Laws/Operands.lean ====
section
/-! SUPPORT. What the checks of a command say, byte by byte (spec 20_memory.md R66, R67), and the first check that
fails (60_exceptions.md R252). -/

namespace Sys2Proof.Machine

/-- Two buffers overlap exactly when some address is in both (R67, R263). -/
theorem overlaps_iff (b c : Buffer) :
    overlaps b c = true ↔ ∃ a, (b.addr ≤ a ∧ a < b.addr + b.len) ∧ (c.addr ≤ a ∧ a < c.addr + c.len) := by
  simp only [overlaps, Bool.and_eq_true, decide_eq_true_eq]
  constructor
  · rintro ⟨⟨⟨h1, h2⟩, h3⟩, h4⟩
    exact ⟨max b.addr c.addr, by omega, by omega⟩
  · rintro ⟨a, ⟨h1, h2⟩, h3, h4⟩
    exact ⟨⟨⟨by omega, by omega⟩, by omega⟩, by omega⟩

theorem overlaps_eq_false_iff (b c : Buffer) : overlaps b c = false ↔ Disjoint b c := by
  rw [← Bool.not_eq_true, overlaps_iff, Disjoint, not_exists]

theorem outOfRange_eq_false_iff (p : Params) (b : Buffer) : outOfRange p b = false ↔ b.addr + b.len ≤ 2 ^ p.aw := by
  simp [outOfRange]

theorem outOfRange_iff (p : Params) (b : Buffer) : outOfRange p b = true ↔ 2 ^ p.aw < b.addr + b.len := by
  simp [outOfRange]

/-- An address of the space is unmapped exactly when an unmapped region holds it. -/
theorem mapped_eq_false_iff {p : Params} {a : Nat} (h : a < 2 ^ p.aw) :
    mapped p a = false ↔ ∃ r ∈ p.unmapped, inRegion r a = true := by
  simp [mapped, h, List.all_eq_false]

/-- Inside the space, the mapping check fails exactly when some byte of the buffer is unmapped (R66 check 3, R262). -/
theorem hasUnmapped_iff {p : Params} {b : Buffer} (h : b.addr + b.len ≤ 2 ^ p.aw) :
    hasUnmapped p b = true ↔ ∃ a, b.addr ≤ a ∧ a < b.addr + b.len ∧ mapped p a = false := by
  simp only [hasUnmapped, List.any_eq_true, overlaps_iff]
  constructor
  · rintro ⟨r, hr, a, ⟨h1, h2⟩, h3, h4⟩
    refine ⟨a, h1, h2, (mapped_eq_false_iff (by omega)).mpr ⟨r, hr, ?_⟩⟩
    simp [inRegion, h3, h4]
  · rintro ⟨a, h1, h2, h3⟩
    obtain ⟨r, hr, h4⟩ := (mapped_eq_false_iff (by omega)).mp h3
    simp only [inRegion, Bool.and_eq_true, decide_eq_true_eq] at h4
    exact ⟨r, hr, a, ⟨h1, h2⟩, h4.1, h4.2⟩

/-- A buffer passes checks 2 and 3 exactly when it is admitted byte by byte. -/
theorem admitted_iff (p : Params) (b : Buffer) :
    Admitted p b ↔ outOfRange p b = false ∧ hasUnmapped p b = false := by
  constructor
  · intro h
    refine ⟨(outOfRange_eq_false_iff p b).mpr h.inside, ?_⟩
    rw [← Bool.not_eq_true, hasUnmapped_iff h.inside]
    rintro ⟨a, h1, h2, h3⟩
    simp [h.mapped_all a h1 h2] at h3
  · rintro ⟨h1, h2⟩
    have hin := (outOfRange_eq_false_iff p b).mp h1
    refine ⟨hin, fun a ha hb => ?_⟩
    rw [← Bool.not_eq_false]
    intro hm
    rw [← Bool.not_eq_true, hasUnmapped_iff hin] at h2
    exact h2 ⟨a, ha, hb, hm⟩

/-! ### The first check that fails -/

@[simp] theorem firstFault_nil : firstFault [] = none := rfl

@[simp] theorem firstFault_cons_true (e : ErrCode) (l : List (Bool × ErrCode)) :
    firstFault ((true, e) :: l) = some e := rfl

@[simp] theorem firstFault_cons_false (e : ErrCode) (l : List (Bool × ErrCode)) :
    firstFault ((false, e) :: l) = firstFault l := rfl

theorem firstFault_cons (c : Bool) (e : ErrCode) (l : List (Bool × ErrCode)) :
    firstFault ((c, e) :: l) = if c then some e else firstFault l := by
  cases c <;> rfl

/-- No fault exactly when no check fails. -/
theorem firstFault_eq_none_iff (l : List (Bool × ErrCode)) : firstFault l = none ↔ ∀ c ∈ l, c.1 = false := by
  induction l with
  | nil => simp
  | cons c l ih =>
    obtain ⟨b, e⟩ := c
    cases b <;> simp [ih]

/-- The code raised is that of a check that fails. -/
theorem firstFault_mem {l : List (Bool × ErrCode)} {e : ErrCode} (h : firstFault l = some e) : (true, e) ∈ l := by
  induction l with
  | nil => simp at h
  | cons c l ih =>
    obtain ⟨b, d⟩ := c
    cases b
    · rw [firstFault_cons_false] at h
      exact List.mem_cons_of_mem _ (ih h)
    · rw [firstFault_cons_true, Option.some.injEq] at h
      subst h
      exact List.mem_cons_self ..

theorem State.onCurrent_some {s : State} {x : Instance} {f : Instance → Result} (h : s.current = some x) :
    s.onCurrent f = f x := by
  simp [State.onCurrent, h]

/-- A command that passes its checks answers its effect. -/
theorem State.guarded_none {s t : State} {x : Instance} {l : List (Bool × ErrCode)} (h : firstFault l = none) :
    s.guarded x l t = .next t := by
  simp [State.guarded, h]

/-- A command that fails a check answers the fault. -/
theorem State.guarded_some {s t : State} {x : Instance} {l : List (Bool × ErrCode)} {e : ErrCode}
    (h : firstFault l = some e) : s.guarded x l t = .next (s.raise x e) := by
  simp [State.guarded, h]

/-- The checks of `readyChecks` pass exactly when the engine is ready (R256, R257). -/
theorem readyChecks_pass {s : State} (h : s.Ready) (l : List (Bool × ErrCode)) :
    firstFault (s.readyChecks ++ l) = firstFault l := by
  simp [State.readyChecks, h.valid, h.alive]

/-- The range and mapping checks of an admitted buffer pass. -/
theorem bufferChecks_pass {s : State} {b : Buffer} (h : Admitted s.params b) (l : List (Bool × ErrCode)) :
    firstFault (s.bufferChecks b ++ l) = firstFault l := by
  obtain ⟨h1, h2⟩ := (admitted_iff _ _).mp h
  simp [State.bufferChecks, h1, h2]

/-- The range, mapping and overlap checks of two admitted disjoint buffers pass. -/
theorem twoBufferChecks_pass {s : State} {b c : Buffer} (hb : Admitted s.params b) (hc : Admitted s.params c)
    (hd : Disjoint b c) : firstFault (s.twoBufferChecks b c) = none := by
  obtain ⟨h1, h2⟩ := (admitted_iff _ _).mp hb
  obtain ⟨h3, h4⟩ := (admitted_iff _ _).mp hc
  simp [State.twoBufferChecks, h1, h2, h3, h4, (overlaps_eq_false_iff b c).mpr hd]

end Sys2Proof.Machine
end

