-- ==== Sys2Proof/Laws/Exec.lean ====
section
/-! SUPPORT. Once for all commands: what a command can do. Every command runs its checks on the current instance and
then either raises the first fault or performs its effect; proofs about all commands cite these lemmas. -/

namespace Sys2Proof.Machine

/-- The checks of a command. -/
def checksOf (i : Instr) (s : State) (x : Instance) : List (Bool × ErrCode) :=
  match i with
  | .transform => transformChecks s x
  | .d64 => d64Checks 1 s x
  | .d64Way2 => d64Checks 2 s x
  | .d64Way4 => d64Checks 4 s x
  | .d64Way8 => d64Checks 8 s x
  | .dispatch => dispatchChecks s
  | .hReset => s.readyChecks
  | .hWrite => hWriteChecks s x
  | .hFinalize => hFinalizeChecks s x
  | .sha256d64 => sha256d64Checks s x

/-- The effect of a command. -/
def effectOf (i : Instr) (s : State) (x : Instance) : State :=
  match i with
  | .transform => transformEffect s x
  | .d64 => d64Effect 1 s x
  | .d64Way2 => d64Effect 2 s x
  | .d64Way4 => d64Effect 4 s x
  | .d64Way8 => d64Effect 8 s x
  | .dispatch => dispatchEffect s x
  | .hReset => hResetEffect s x
  | .hWrite => hWriteEffect s x
  | .hFinalize => hFinalizeEffect s x
  | .sha256d64 => sha256d64Effect s x

/-- The registers of the issuing instance after a command's effect, before `STATUS.ERR <- 0`. -/
def instOf (i : Instr) (s : State) (x : Instance) : Instance :=
  match i with
  | .transform => { x with h := compressBlocks x.cnt x.h (s.mem.readBytes x.srcAddr x.srcLen) }
  | .d64 => x
  | .d64Way2 => x
  | .d64Way4 => x
  | .d64Way8 => x
  | .dispatch => x
  | .hReset => { x with h := Rom.IV, bufLen := 0, total := 0, hst := .fresh }
  | .hWrite => x.absorb (s.mem.readBytes x.srcAddr x.srcLen)
  | .hFinalize => { x with h := x.finalState, hst := .finalized }
  | .sha256d64 => x

/-- The bytes a command stores at `DST_ADDR`; none for a command that stores nothing. -/
def outputOf (i : Instr) (s : State) (x : Instance) : List Byte :=
  match i with
  | .transform => []
  | .d64 => laneGroup 1 (s.mem.readBytes x.srcAddr (64 * 1))
  | .d64Way2 => laneGroup 2 (s.mem.readBytes x.srcAddr (64 * 2))
  | .d64Way4 => laneGroup 4 (s.mem.readBytes x.srcAddr (64 * 4))
  | .d64Way8 => laneGroup 8 (s.mem.readBytes x.srcAddr (64 * 8))
  | .dispatch => []
  | .hReset => []
  | .hWrite => []
  | .hFinalize => digest x.finalState
  | .sha256d64 => runPlan (plan s.cfg x.cnt) (s.mem.readBytes x.srcAddr (64 * x.cnt))

theorem exec_eq_guarded (i : Instr) (s : State) :
    exec i s = s.onCurrent fun x => s.guarded x (checksOf i s x) (effectOf i s x) := by
  cases i <;> rfl

/-- A command on an instance that exists. -/
theorem exec_of_current {i : Instr} {s : State} {x : Instance} (h : s.current = some x) :
    exec i s = s.guarded x (checksOf i s x) (effectOf i s x) := by
  rw [exec_eq_guarded, State.onCurrent_some h]

/-- A command whose checks all pass answers its effect. -/
theorem exec_completes {i : Instr} {s : State} {x : Instance} (h : s.current = some x)
    (hc : firstFault (checksOf i s x) = none) : exec i s = .next (effectOf i s x) := by
  rw [exec_of_current h, State.guarded_none hc]

/-- A command that fails a check raises the first that fails, and does nothing else. -/
theorem exec_raises {i : Instr} {s : State} {x : Instance} {e : ErrCode} (h : s.current = some x)
    (hc : firstFault (checksOf i s x) = some e) : exec i s = .next (s.raise x e) := by
  rw [exec_of_current h, State.guarded_some hc]

/-- Everything a command can do when it answers a next state. -/
theorem exec_next_cases {i : Instr} {s t : State} (h : exec i s = .next t) :
    ∃ x, s.current = some x ∧
      ((∃ e, firstFault (checksOf i s x) = some e ∧ t = s.raise x e) ∨
        (firstFault (checksOf i s x) = none ∧ t = effectOf i s x)) := by
  cases hx : s.current with
  | none => rw [exec_eq_guarded, State.onCurrent, hx] at h; cases h
  | some x =>
    refine ⟨x, rfl, ?_⟩
    cases hc : firstFault (checksOf i s x) with
    | none => rw [exec_completes hx hc] at h; cases h; exact .inr ⟨rfl, rfl⟩
    | some e => rw [exec_raises hx hc] at h; cases h; exact .inl ⟨e, rfl, rfl⟩

/-- No command raises `OK` or `E_ILLEGAL_CMD` as a fault. -/
theorem firstFault_checksOf_ne {i : Instr} {s : State} {x : Instance} {e : ErrCode}
    (h : firstFault (checksOf i s x) = some e) : e ≠ .ok ∧ e ≠ .illegalCmd := by
  have hm := firstFault_mem h
  constructor <;> rintro rfl <;>
    cases i <;>
    simp [checksOf, transformChecks, d64Checks, dispatchChecks, hWriteChecks, hFinalizeChecks, sha256d64Checks,
      State.readyChecks, State.bufferChecks, State.twoBufferChecks] at hm

/-! ### The fields of an effect -/

section Effect
variable (i : Instr) (s : State) (x : Instance)

@[simp] theorem effectOf_params : (effectOf i s x).params = s.params := by
  cases i <;> simp [effectOf, transformEffect, d64Effect, hResetEffect, hWriteEffect, hFinalizeEffect,
    sha256d64Effect, dispatchEffect]
  split <;> rfl

@[simp] theorem effectOf_script : (effectOf i s x).script = s.script := by
  cases i <;> simp [effectOf, transformEffect, d64Effect, hResetEffect, hWriteEffect, hFinalizeEffect,
    sha256d64Effect, dispatchEffect]
  split <;> rfl

@[simp] theorem effectOf_sel : (effectOf i s x).sel = s.sel := by
  cases i <;> simp [effectOf, transformEffect, d64Effect, hResetEffect, hWriteEffect, hFinalizeEffect,
    sha256d64Effect, dispatchEffect]
  split <;> rfl

@[simp] theorem effectOf_insts : (effectOf i s x).insts = s.insts.set s.sel { instOf i s x with err := .ok } := by
  cases i <;> simp [effectOf, transformEffect, d64Effect, hResetEffect, hWriteEffect, hFinalizeEffect,
    sha256d64Effect, dispatchEffect, instOf]
  split <;> rfl

@[simp] theorem effectOf_mem : (effectOf i s x).mem = s.mem.writeBytes x.dstAddr (outputOf i s x) := by
  cases i <;> simp [effectOf, transformEffect, d64Effect, hResetEffect, hWriteEffect, hFinalizeEffect,
    sha256d64Effect, dispatchEffect, outputOf, Memory.writeBytes]
  split <;> rfl

theorem effectOf_cfg_of_ne {i : Instr} (h : i ≠ .dispatch) : (effectOf i s x).cfg = s.cfg := by
  cases i <;> first | rfl | exact absurd rfl h

theorem effectOf_abt_of_ne {i : Instr} (h : i ≠ .dispatch) : (effectOf i s x).abt = s.abt := by
  cases i <;> first | rfl | exact absurd rfl h

theorem effectOf_received_of_ne {i : Instr} (h : i ≠ .dispatch) : (effectOf i s x).received = s.received := by
  cases i <;> first | rfl | exact absurd rfl h

theorem dispatchEffect_of_valid {s : State} (x : Instance) (h : s.cfg.valid = true) :
    dispatchEffect s x = { s.commit x with received := .summary s.sel s.abt :: s.received } := by
  simp [dispatchEffect, h]

theorem dispatchEffect_of_not_valid {s : State} (x : Instance) (h : s.cfg.valid = false) :
    dispatchEffect s x =
      { s.commit x with
        abt := selectTable s.params
        cfg := publishedCfg (selectTable s.params)
        received := .summary s.sel (selectTable s.params) :: s.received } := by
  simp [dispatchEffect, h]

/-- No command writes an operand register (R31) or the record of the host's writing agent. -/
theorem instOf_operands :
    (instOf i s x).srcAddr = x.srcAddr ∧ (instOf i s x).srcLen = x.srcLen ∧ (instOf i s x).dstAddr = x.dstAddr ∧
      (instOf i s x).dstLen = x.dstLen ∧ (instOf i s x).cnt = x.cnt ∧ (instOf i s x).writer = x.writer := by
  cases i <;> simp [instOf, Instance.absorb]

end Effect

/-- A command that passes its checks stores inside its destination buffer only, and fills it (R79): the stored bytes
are as many as the command's rule says. -/
theorem outputOf_length (i : Instr) (s : State) (x : Instance) :
    (outputOf i s x).length =
      match i with
      | .transform | .dispatch | .hReset | .hWrite => 0
      | .d64 | .hFinalize => 32
      | .d64Way2 => 64
      | .d64Way4 => 128
      | .d64Way8 => 256
      | .sha256d64 => 32 * x.cnt := by
  cases i <;> simp [outputOf, runPlan_length, plan, planWithin_sum]

end Sys2Proof.Machine
end

