-- ==== Sys2Proof/Laws/Checks.lean ====
section
/-! SUPPORT. The checks of each command fail exactly on the conditions of 60_exceptions.md R251 and R260 to R265
(`CheckFails`), in the order of the codes (R252). -/

namespace Sys2Proof.Machine

theorem ErrCode.eq_of_code {e d : ErrCode} (h : e.code.toNat = d.code.toNat) : e = d := by
  revert h; cases e <;> cases d <;> decide

/-- A list of checks decides the conditions `P` of the codes from `n` on, in the order of the codes. -/
def DecidesInOrder (P : ErrCode → Prop) : Nat → List (Bool × ErrCode) → Prop
  | n, [] => ∀ e : ErrCode, n ≤ e.code.toNat → ¬P e
  | n, (b, e) :: rest =>
    (∀ e' : ErrCode, n ≤ e'.code.toNat → e'.code.toNat < e.code.toNat → ¬P e') ∧
      (b = true → P e) ∧ (b = false → ¬P e ∧ DecidesInOrder P (e.code.toNat + 1) rest)

/-- The code reported holds, and no smaller one does. -/
theorem DecidesInOrder.of_some {P : ErrCode → Prop} {l : List (Bool × ErrCode)} {n : Nat} {e : ErrCode}
    (h : DecidesInOrder P n l) (he : firstFault l = some e) :
    P e ∧ ∀ e' : ErrCode, n ≤ e'.code.toNat → e'.code.toNat < e.code.toNat → ¬P e' := by
  induction l generalizing n with
  | nil => cases he
  | cons c l ih =>
    obtain ⟨b, d⟩ := c
    obtain ⟨h1, h2, h3⟩ := h
    cases b
    · rw [firstFault_cons_false] at he
      obtain ⟨h4, h5⟩ := ih (h3 rfl).2 he
      refine ⟨h4, fun e' h6 h7 => ?_⟩
      rcases Nat.lt_trichotomy e'.code.toNat d.code.toNat with h | h | h
      · exact h1 e' h6 h
      · rw [ErrCode.eq_of_code h]; exact (h3 rfl).1
      · exact h5 e' h h7
    · cases he
      exact ⟨h2 rfl, h1⟩

/-- With no code reported none holds. -/
theorem DecidesInOrder.of_none {P : ErrCode → Prop} {l : List (Bool × ErrCode)} {n : Nat}
    (h : DecidesInOrder P n l) (he : firstFault l = none) : ∀ e : ErrCode, n ≤ e.code.toNat → ¬P e := by
  induction l generalizing n with
  | nil => exact h
  | cons c l ih =>
    obtain ⟨b, d⟩ := c
    obtain ⟨h1, h2, h3⟩ := h
    cases b
    · rw [firstFault_cons_false] at he
      intro e h6
      rcases Nat.lt_trichotomy e.code.toNat d.code.toNat with h | h | h
      · exact h1 e h6 h
      · rw [ErrCode.eq_of_code h]; exact (h3 rfl).1
      · exact ih (h3 rfl).2 he e h
    · cases he

/-! ### The segments commands share -/

section Segments
variable (i : Instr) (s : State) (x : Instance)

theorem hasUnmapped_iff_of_inRange {p : Params} {b : Buffer} (h : outOfRange p b = false) :
    hasUnmapped p b = true ↔ ∃ a, b.addr ≤ a ∧ a < b.addr + b.len ∧ mapped p a = false :=
  hasUnmapped_iff ((outOfRange_eq_false_iff _ _).mp h)

theorem readyChecks_inOrder {l : List (Bool × ErrCode)} (hi : i ≠ .dispatch)
    (h : DecidesInOrder (CheckFails s x i) 4 l) :
    DecidesInOrder (CheckFails s x i) 0 (s.readyChecks ++ l) := by
  simp only [State.readyChecks, List.cons_append, List.nil_append]
  refine ⟨?_, by simp [CheckFails],
    fun h1 => ⟨by simp [CheckFails, h1], ?_, by simp [CheckFails, hi], fun h2 => ⟨?_, h⟩⟩⟩
  · intro e; cases e <;> simp [ErrCode.code, CheckFails]
  · intro e; cases e <;> simp [ErrCode.code]
  · simp only [Bool.not_eq_false'] at h2
    simp [CheckFails, h2]

theorem bufferChecks_inOrder {P : ErrCode → Prop} {b : Buffer} {l : List (Bool × ErrCode)}
    (h1 : P .range ↔ 2 ^ s.params.aw < b.addr + b.len)
    (h2 : P .bus ↔ ∃ a, b.addr ≤ a ∧ a < b.addr + b.len ∧ mapped s.params a = false)
    (h : DecidesInOrder P 9 l) : DecidesInOrder P 7 (s.bufferChecks b ++ l) := by
  simp only [State.bufferChecks, List.cons_append, List.nil_append]
  refine ⟨?_, by simp [h1, outOfRange], fun h4 => ⟨by simpa [h1, outOfRange] using h4, ?_, fun h5 => ?_,
    fun h5 => ⟨?_, h⟩⟩⟩
  · intro e; cases e <;> simp [ErrCode.code]
  · intro e; cases e <;> simp [ErrCode.code]
  · exact h2.mpr ((hasUnmapped_iff_of_inRange h4).mp h5)
  · rw [h2, ← hasUnmapped_iff_of_inRange h4, h5]; simp

theorem twoBufferChecks_inOrder (hr : readsOf i x = [x.src]) (hw : writesOf i x = [x.dst]) (h2 : i ≠ .hWrite)
    (h3 : i ≠ .dispatch) : DecidesInOrder (CheckFails s x i) 7 (s.twoBufferChecks x.src x.dst) := by
  refine ⟨?_, by simp [CheckFails, hr, hw, outOfRange], fun h4 => ?_⟩
  · intro e; cases e <;> simp [ErrCode.code]
  simp only [Bool.or_eq_false_iff] at h4
  refine ⟨by simpa [CheckFails, hr, hw, outOfRange] using h4, ?_, fun h5 => ?_, fun h5 => ⟨?_, ?_, fun h => ?_,
    fun h => ⟨by simp [CheckFails, hr, hw, ← overlaps_eq_false_iff, h], ?_⟩⟩⟩
  · intro e; cases e <;> simp [ErrCode.code]
  · simp only [Bool.or_eq_true, hasUnmapped_iff_of_inRange h4.1, hasUnmapped_iff_of_inRange h4.2] at h5
    simpa [CheckFails, hr, hw] using h5
  · rw [← Bool.not_eq_true] at h5
    simp only [Bool.or_eq_true, hasUnmapped_iff_of_inRange h4.1, hasUnmapped_iff_of_inRange h4.2] at h5
    simpa [CheckFails, hr, hw] using h5
  · intro e; cases e <;> simp [ErrCode.code]
  · simp [CheckFails, hr, hw, ← overlaps_eq_false_iff, h]
  · intro e; cases e <;> simp [ErrCode.code, CheckFails, h2, h3]

theorem d64Checks_inOrder {n : Nat} (hr : readsOf i x = [x.src]) (hw : writesOf i x = [x.dst]) (h2 : i ≠ .hWrite)
    (h3 : i ≠ .dispatch) (h4 : i ≠ .hFinalize) (hb : batchWidth i = some n)
    (hl : requiredLengths i x = [(x.srcLen, 64 * n), (x.dstLen, 32 * n)]) :
    DecidesInOrder (CheckFails s x i) 0 (d64Checks n s x) := by
  simp only [d64Checks, List.append_assoc]
  refine readyChecks_inOrder i s x h3 ⟨?_, by simp [CheckFails, hb], fun h5 => ⟨?_, ?_, by simp [CheckFails, hl],
    fun h6 => ⟨?_, twoBufferChecks_inOrder i s x hr hw h2 h3⟩⟩⟩
  · intro e; cases e <;> simp [ErrCode.code]
  · simp only [Bool.not_eq_false'] at h5
    simp [CheckFails, hb, h5]
  · intro e; cases e <;> simp [ErrCode.code, CheckFails, h2, h4]
  · simp only [Bool.or_eq_false_iff, bne_eq_false_iff_eq] at h6
    simpa [CheckFails, hl] using h6

end Segments

/-- The checks of every command decide its conditions in the order of the codes. -/
theorem checksOf_inOrder (i : Instr) (s : State) (x : Instance) :
    DecidesInOrder (CheckFails s x i) 0 (checksOf i s x) := by
  have tail : ∀ i, i ≠ .dispatch → i ≠ .hWrite → (readsOf i x = [] ∨ writesOf i x = []) →
      DecidesInOrder (CheckFails s x i) 9 [] := by
    intro i h1 h2 h3 e
    cases e <;> simp [ErrCode.code, CheckFails, h1, h2]
    rcases h3 with h3 | h3 <;> simp [h3]
  cases i
  case d64 => exact d64Checks_inOrder _ s x rfl rfl (by decide) (by decide) (by decide) rfl rfl
  case d64Way2 => exact d64Checks_inOrder _ s x rfl rfl (by decide) (by decide) (by decide) rfl rfl
  case d64Way4 => exact d64Checks_inOrder _ s x rfl rfl (by decide) (by decide) (by decide) rfl rfl
  case d64Way8 => exact d64Checks_inOrder _ s x rfl rfl (by decide) (by decide) (by decide) rfl rfl
  case transform =>
    simp only [checksOf, transformChecks, List.append_assoc]
    refine readyChecks_inOrder _ s x (by decide) ⟨?_, by simp [CheckFails, requiredLengths], fun h6 => ⟨?_, ?_⟩⟩
    · intro e; cases e <;> simp [ErrCode.code, CheckFails, batchWidth]
    · simp only [bne_eq_false_iff_eq] at h6
      simp [CheckFails, requiredLengths, h6]
    show DecidesInOrder _ 7 (s.bufferChecks _)
    rw [← List.append_nil (s.bufferChecks _)]
    exact bufferChecks_inOrder s (by simp [CheckFails, readsOf, writesOf]) (by simp [CheckFails, readsOf, writesOf])
      (tail _ (by decide) (by decide) (by simp [writesOf]))
  case dispatch =>
    refine ⟨?_, by simp [CheckFails], fun h1 => ⟨by simp [CheckFails, h1], ?_, by simp [CheckFails, selfTest],
      fun h2 => ⟨by simp [selfTest] at h2; simpa [CheckFails] using h2, ?_⟩⟩⟩
    · intro e; cases e <;> simp [ErrCode.code, CheckFails]
    · intro e; cases e <;> simp [ErrCode.code, CheckFails, batchWidth, requiredLengths, readsOf, writesOf]
    · intro e; cases e <;> simp [ErrCode.code]
  case hReset =>
    rw [show checksOf .hReset s x = s.readyChecks ++ [] by simp [checksOf]]
    refine readyChecks_inOrder _ s x (by decide) ?_
    intro e; cases e <;> simp [ErrCode.code, CheckFails, batchWidth, requiredLengths, readsOf, writesOf]
  case hWrite =>
    have h7 : DecidesInOrder (CheckFails s x .hWrite) 7
        (s.bufferChecks x.src ++ [(decide (2 ^ 61 ≤ x.total.toNat + x.srcLen), .tooLong)]) := by
      refine bufferChecks_inOrder s (by simp [CheckFails, readsOf, writesOf])
        (by simp [CheckFails, readsOf, writesOf]) ⟨?_, by simp [CheckFails], fun h6 => ⟨?_, ?_⟩⟩
      · intro e; cases e <;> simp [ErrCode.code, CheckFails, writesOf]
      · simpa [CheckFails] using h6
      · intro e; cases e <;> simp [ErrCode.code, CheckFails]
    simp only [checksOf, hWriteChecks, List.append_assoc]
    refine readyChecks_inOrder _ s x (by decide) ⟨?_, by simp [CheckFails], fun h6 => ⟨?_, ?_, h7.2⟩⟩
    · intro e; cases e <;> simp [ErrCode.code, CheckFails, batchWidth]
    · simp only [beq_eq_false_iff_ne, ne_eq] at h6
      simp [CheckFails, h6]
    · intro e; cases e <;> simp [ErrCode.code, CheckFails, requiredLengths]
  case hFinalize =>
    simp only [checksOf, hFinalizeChecks, List.append_assoc]
    refine readyChecks_inOrder _ s x (by decide) ⟨?_, by simp [CheckFails],
      fun h6 => ⟨?_, ?_, by simp [CheckFails, requiredLengths], fun h7 => ⟨?_, ?_⟩⟩⟩
    · intro e; cases e <;> simp [ErrCode.code, CheckFails, batchWidth]
    · simp only [beq_eq_false_iff_ne, ne_eq] at h6
      simp [CheckFails, h6]
    · intro e; cases e <;> simp [ErrCode.code]
    · simp only [bne_eq_false_iff_eq] at h7
      simp [CheckFails, requiredLengths, h7]
    show DecidesInOrder _ 7 (s.bufferChecks _)
    rw [← List.append_nil (s.bufferChecks _)]
    exact bufferChecks_inOrder s (by simp [CheckFails, readsOf, writesOf]) (by simp [CheckFails, readsOf, writesOf])
      (tail _ (by decide) (by decide) (by simp [readsOf]))
  case sha256d64 =>
    simp only [checksOf, sha256d64Checks, List.append_assoc]
    refine readyChecks_inOrder _ s x (by decide) ⟨?_, by simp [CheckFails, requiredLengths],
      fun h6 => ⟨?_, twoBufferChecks_inOrder _ s x rfl rfl (by decide) (by decide)⟩⟩
    · intro e; cases e <;> simp [ErrCode.code, CheckFails, batchWidth]
    · simp only [Bool.or_eq_false_iff, bne_eq_false_iff_eq] at h6
      simpa [CheckFails, requiredLengths] using h6

/-- The fault a command raises has its condition, and no condition of a smaller code holds. -/
theorem checksOf_some {i : Instr} {s : State} {x : Instance} {e : ErrCode}
    (h : firstFault (checksOf i s x) = some e) :
    CheckFails s x i e ∧ ∀ e' : ErrCode, e'.code.toNat < e.code.toNat → ¬CheckFails s x i e' :=
  have := (checksOf_inOrder i s x).of_some h
  ⟨this.1, fun e' => this.2 e' (Nat.zero_le _)⟩

/-- A command that raises no fault meets no condition of a fault. -/
theorem checksOf_none {i : Instr} {s : State} {x : Instance} (h : firstFault (checksOf i s x) = none)
    (e : ErrCode) : ¬CheckFails s x i e :=
  (checksOf_inOrder i s x).of_none h e (Nat.zero_le _)

/-- The checks pass when no condition holds. -/
theorem checksOf_pass {i : Instr} {s : State} {x : Instance} (h : ∀ e, ¬CheckFails s x i e) :
    firstFault (checksOf i s x) = none := by
  cases hff : firstFault (checksOf i s x) with
  | none => rfl
  | some e => exact absurd (checksOf_some hff).1 (h e)

/-- A command that passes its checks has admitted buffers (R66). -/
theorem admitted_of_pass {i : Instr} {s : State} {x : Instance} (h : firstFault (checksOf i s x) = none) {b : Buffer}
    (hb : b ∈ readsOf i x ++ writesOf i x) : Admitted s.params b := by
  have h1 := checksOf_none h .range
  have h2 := checksOf_none h .bus
  simp only [CheckFails, not_exists, not_and] at h1 h2
  exact ⟨Nat.not_lt.mp (h1 b hb), fun a ha hb' => by simpa using h2 b hb a ha hb'⟩

/-- A command that passes its checks stores exactly its destination buffer (R63, R79). -/
theorem output_fills_destination {i : Instr} {s : State} {x : Instance} (h : firstFault (checksOf i s x) = none) :
    (writesOf i x = [] → outputOf i s x = []) ∧
      ∀ b ∈ writesOf i x, b.addr = x.dstAddr ∧ b.len = (outputOf i s x).length := by
  have := checksOf_none h .length
  rw [outputOf_length]
  cases i <;> simp_all [CheckFails, requiredLengths, writesOf, Instance.dst] <;> rfl

end Sys2Proof.Machine
end

