-- ==== Sys2Proof/Laws/Dispatcher.lean ====
section
/-! SUPPORT. The selection of backends (spec 44_dispatch_selftest.md R201). -/

namespace Sys2Proof.Machine

@[simp] theorem reqHolds_always (cap : List Capability) : reqHolds cap .always = true := rfl

theorem mem_eligible {p : Params} {slot : Slot} {c : Candidate} :
    c ∈ eligible p slot ↔ c ∈ p.candidates ∧ slot ∈ c.slots ∧ reqHolds p.cap c.requires = true := by
  simp [eligible, List.mem_filter]

/-- Nothing is chosen only where there is nothing to choose. -/
theorem fastest_eq_none_iff (l : List Candidate) : fastest l = none ↔ l = [] := by
  cases l with
  | nil => simp [fastest]
  | cons c l =>
    simp only [fastest]
    split
    · simp
    · split <;> simp

/-- The chosen candidate is one of the list, and none is faster. -/
theorem fastest_spec {l : List Candidate} {c : Candidate} (h : fastest l = some c) :
    c ∈ l ∧ ∀ d ∈ l, c.rank ≤ d.rank := by
  induction l generalizing c with
  | nil => simp [fastest] at h
  | cons b l ih =>
    rw [fastest] at h
    cases hf : fastest l with
    | none =>
      rw [hf] at h
      rw [fastest_eq_none_iff] at hf
      cases h
      simp [hf]
    | some d =>
      rw [hf] at h
      obtain ⟨h1, h2⟩ := ih hf
      simp only at h
      split at h
      · next hle =>
        cases h
        refine ⟨by simp, fun e he => ?_⟩
        rcases List.mem_cons.mp he with rfl | he
        · exact Nat.le_refl _
        · exact Nat.le_trans hle (h2 e he)
      · next hle =>
        cases h
        refine ⟨by simp [h1], fun e he => ?_⟩
        rcases List.mem_cons.mp he with rfl | he
        · omega
        · exact h2 e he

/-- A slot is filled exactly when some candidate for it is satisfied (R201, R6). -/
theorem fastest_eligible_isSome (p : Params) (slot : Slot) :
    (fastest (eligible p slot)).isSome = true ↔
      ∃ c ∈ p.candidates, slot ∈ c.slots ∧ reqHolds p.cap c.requires = true := by
  rw [← Option.ne_none_iff_isSome, Ne, fastest_eq_none_iff]
  constructor
  · intro h
    obtain ⟨c, hc⟩ := List.exists_mem_of_ne_nil _ h
    have := mem_eligible.mp hc
    exact ⟨c, this.1, this.2⟩
  · rintro ⟨c, h1, h2⟩ h
    have : c ∈ eligible p slot := mem_eligible.mpr ⟨h1, h2⟩
    simp [h] at this

/-- The core slot and the width-1 slot are never empty after selection (R201). -/
theorem selectTable_mandatory {p : Params} (h : p.Wf) :
    (selectTable p).core.isSome = true ∧ (selectTable p).d64x1.isSome = true := by
  obtain ⟨c, hc, hs, hr⟩ := h.core_candidate
  obtain ⟨d, hd, hs', hr'⟩ := h.d64x1_candidate
  simp only [selectTable, Option.isSome_map]
  exact ⟨(fastest_eligible_isSome p .core).mpr ⟨c, hc, hs, by simp [hr]⟩,
    (fastest_eligible_isSome p .d64x1).mpr ⟨d, hd, hs', by simp [hr']⟩⟩

/-- A reference state is `Compress` folded over the leading blocks. -/
theorem compressBlocks_eq_selfTestRef (text : List Byte) (i : Nat) :
    compressBlocks i Rom.IV text = selfTestRef text i := by
  induction i with
  | zero => rfl
  | succ i ih => rw [compressBlocks_add, ih]; rfl

end Sys2Proof.Machine
end

