-- ==== Sys2Proof/Laws/Hasher.lean ====
section
/-! SUPPORT. Appending bytes to the hasher (spec 45_hasher.md R223, R227, R228). -/

namespace Sys2Proof.Machine

/-- After appending `d` the buffer holds what the whole blocks leave over. -/
theorem absorb_buffered (x : Instance) (d : List Byte) :
    (x.absorb d).buffered = (x.buffered ++ d).drop (64 * ((x.buffered ++ d).length / 64)) := by
  have h : (x.buffered ++ d).length % 64 =
      ((x.buffered ++ d).drop (64 * ((x.buffered ++ d).length / 64))).length := by
    rw [List.length_drop]; omega
  show List.take ((x.buffered ++ d).length % 64)
    (storeBuf x.buf ((x.buffered ++ d).drop (64 * ((x.buffered ++ d).length / 64)))).toList = _
  rw [h, storeBuf_take (by rw [List.length_drop]; omega)]

/-- Appending `d` and then `e` leaves what appending `d || e` leaves (R228). -/
theorem absorb_absorb (x : Instance) (d e : List Byte) :
    ((x.absorb d).absorb e).h = (x.absorb (d ++ e)).h ∧
      ((x.absorb d).absorb e).buffered = (x.absorb (d ++ e)).buffered ∧
      ((x.absorb d).absorb e).bufLen = (x.absorb (d ++ e)).bufLen := by
  obtain ⟨st, hst⟩ : ∃ st, st = x.buffered ++ d := ⟨_, rfl⟩
  have hall : x.buffered ++ (d ++ e) = st ++ e := by rw [hst, List.append_assoc]
  have key : (x.absorb d).buffered ++ e = (st ++ e).drop (64 * (st.length / 64)) := by
    rw [absorb_buffered, ← hst]
    exact (List.drop_append_of_le_length (by omega)).symm
  have hlen : (st ++ e).length = 64 * (st.length / 64) + ((x.absorb d).buffered ++ e).length := by
    rw [key, List.length_drop, List.length_append]; omega
  have hq : (st ++ e).length / 64 = st.length / 64 + ((x.absorb d).buffered ++ e).length / 64 := by omega
  refine ⟨?_, ?_, ?_⟩
  · show compressBlocks (((x.absorb d).buffered ++ e).length / 64)
        (compressBlocks ((x.buffered ++ d).length / 64) x.h (x.buffered ++ d)) ((x.absorb d).buffered ++ e) =
      compressBlocks ((x.buffered ++ (d ++ e)).length / 64) x.h (x.buffered ++ (d ++ e))
    rw [hall, ← hst, hq, compressBlocks_add, ← key, compressBlocks_append (st.length / 64) _ _ _ (by omega)]
  · rw [absorb_buffered, absorb_buffered x (d ++ e), hall, hq, Nat.mul_add, ← List.drop_drop, ← key]
  · apply Fin.ext
    show ((x.absorb d).buffered ++ e).length % 64 = (x.buffered ++ (d ++ e)).length % 64
    rw [hall]; omega

/-- Appending no bytes compresses nothing and keeps the buffer. -/
theorem absorb_nil (x : Instance) : (x.absorb []).h = x.h ∧ (x.absorb []).buffered = x.buffered := by
  have h0 : (x.buffered ++ []).length / 64 = 0 := by
    simp only [List.append_nil, buffered_length]; omega
  constructor
  · show compressBlocks ((x.buffered ++ []).length / 64) _ _ = _
    rw [h0]; rfl
  · rw [absorb_buffered, h0]; simp

/-- An empty buffer holds no bytes. -/
theorem buffered_nil {x : Instance} (h : x.bufLen = 0) : x.buffered = [] := by
  simp [Instance.buffered, h]

/-- Folding the whole blocks of `d` and then its rest with the padding is folding `d || Pad(len d)` (R227). -/
theorem foldBlocks_pad (d : List Byte) (h : HashState) :
    foldBlocks (compressBlocks (d.length / 64) h d) (d.drop (64 * (d.length / 64)) ++ pad d.length) =
      foldBlocks h (d ++ pad d.length) := by
  have h1 : (d ++ pad d.length).length / 64 =
      d.length / 64 + (d.drop (64 * (d.length / 64)) ++ pad d.length).length / 64 := by
    simp only [List.length_append, List.length_drop]; omega
  rw [foldBlocks, foldBlocks, h1, compressBlocks_add, compressBlocks_append (d.length / 64) _ _ _ (by omega),
    List.drop_append_of_le_length (l₁ := d) (by omega)]

end Sys2Proof.Machine
end

