-- ==== Sys2Proof/Laws/Memory.lean ====
section
/-! SUPPORT. The laws of the data space: a read after a write (spec 20_memory.md R61, R62), and that every memory
operation keeps the canonical form. -/

namespace Sys2Proof.Machine

/-! ### Reading -/

@[simp] theorem Memory.read_nil (a : Nat) : Memory.read [] a = Memory.unlisted := rfl

theorem Memory.read_cons (c : Host.Cell) (m : Memory) (a : Nat) :
    Memory.read (c :: m) a = if c.1 = a then c.2 else Memory.read m a := rfl

theorem Memory.read_filter_same (m : Memory) (a : Nat) :
    Memory.read (m.filter fun c => c.1 != a) a = Memory.unlisted := by
  induction m with
  | nil => rfl
  | cons c m ih =>
    by_cases h : c.1 = a
    · simpa [List.filter_cons, h] using ih
    · simpa [List.filter_cons, h, Memory.read_cons] using ih

theorem Memory.read_filter_other {m : Memory} {a x : Nat} (h : x ≠ a) :
    Memory.read (m.filter fun c => c.1 != a) x = Memory.read m x := by
  induction m with
  | nil => rfl
  | cons c m ih =>
    by_cases hc : c.1 = a
    · have : ¬c.1 = x := fun e => h (e.symm.trans hc)
      simpa [List.filter_cons, hc, Memory.read_cons, Ne.symm h] using ih
    · simp [hc, Memory.read_cons, ih]

theorem Memory.read_insert_same (m : Memory) (a : Nat) (b : Byte) : Memory.read (Memory.insert m a b) a = b := by
  induction m with
  | nil => simp [Memory.insert, Memory.read_cons]
  | cons c m ih =>
    unfold Memory.insert
    split
    · simp [Memory.read_cons]
    · split
      · simp [Memory.read_cons]
      · next h => simp [Memory.read_cons, Ne.symm h, ih]

theorem Memory.read_insert_other {m : Memory} {a x : Nat} (b : Byte) (h : x ≠ a) :
    Memory.read (Memory.insert m a b) x = Memory.read m x := by
  induction m with
  | nil => simp [Memory.insert, Memory.read_cons, Ne.symm h]
  | cons c m ih =>
    unfold Memory.insert
    split
    · simp [Memory.read_cons, Ne.symm h]
    · split
      · next hc => simp [Memory.read_cons, Ne.symm h, ← hc]
      · simp [Memory.read_cons, ih]

/-- The byte just written is the byte read (R62). -/
@[simp] theorem Memory.read_write_same (m : Memory) (a : Nat) (b : Byte) : (m.write a b).read a = b := by
  unfold Memory.write
  split
  · next h => rw [Memory.read_filter_same, h]
  · exact Memory.read_insert_same m a b

/-- Every other byte reads as before (R62). -/
theorem Memory.read_write_other {m : Memory} {a x : Nat} (b : Byte) (h : x ≠ a) :
    (m.write a b).read x = m.read x := by
  unfold Memory.write
  split
  · exact Memory.read_filter_other h
  · exact Memory.read_insert_other b h

/-- A byte outside the stored bytes reads as before. -/
theorem Memory.read_writeBytes_outside {m : Memory} {addr x : Nat} {s : List Byte}
    (h : x < addr ∨ addr + s.length ≤ x) : (m.writeBytes addr s).read x = m.read x := by
  induction s generalizing m addr with
  | nil => rfl
  | cons b s ih =>
    simp only [List.length_cons] at h
    rw [Memory.writeBytes, ih (by omega), Memory.read_write_other b (by omega)]

/-- A stored byte reads as what was stored. -/
theorem Memory.read_writeBytes_inside {m : Memory} {addr i : Nat} {s : List Byte} (h : i < s.length) :
    (m.writeBytes addr s).read (addr + i) = s[i] := by
  induction s generalizing m addr i with
  | nil => simp at h
  | cons b s ih =>
    rw [Memory.writeBytes]
    cases i with
    | zero => rw [Nat.add_zero, Memory.read_writeBytes_outside (by omega)]; simp
    | succ i =>
      have := ih (m := m.write addr b) (addr := addr + 1) (i := i) (by simpa using h)
      rw [show addr + (i + 1) = addr + 1 + i by omega, this]; rfl

@[simp] theorem Memory.readBytes_length (m : Memory) (addr n : Nat) : (m.readBytes addr n).length = n := by
  induction n generalizing addr with
  | zero => rfl
  | succ n ih => simp [Memory.readBytes, ih]

theorem Memory.readBytes_getElem (m : Memory) (addr n i : Nat) (h : i < (m.readBytes addr n).length) :
    (m.readBytes addr n)[i] = m.read (addr + i) := by
  induction n generalizing addr i with
  | zero => simp [Memory.readBytes] at h
  | succ n ih =>
    cases i with
    | zero => rfl
    | succ i =>
      have := ih (addr + 1) i (by simpa using h)
      simpa [Memory.readBytes, Nat.add_assoc, Nat.add_comm 1 i] using this

/-- A buffer read in two parts. -/
theorem Memory.readBytes_add (m : Memory) (addr n k : Nat) :
    m.readBytes addr (n + k) = m.readBytes addr n ++ m.readBytes (addr + n) k := by
  induction n generalizing addr with
  | zero => simp [Memory.readBytes]
  | succ n ih =>
    rw [Nat.succ_add, Memory.readBytes, Memory.readBytes, ih (addr + 1), List.cons_append,
      show addr + 1 + n = addr + (n + 1) by omega]

/-- A buffer reads the same in two memories that agree on its bytes. -/
theorem Memory.readBytes_congr {m m' : Memory} {addr n : Nat}
    (h : ∀ a, addr ≤ a → a < addr + n → m.read a = m'.read a) : m.readBytes addr n = m'.readBytes addr n := by
  induction n generalizing addr with
  | zero => rfl
  | succ n ih =>
    rw [Memory.readBytes, Memory.readBytes, h addr (by omega) (by omega), ih fun a h1 h2 => h a (by omega) (by omega)]

/-- A buffer just written reads as what was written. -/
theorem Memory.readBytes_writeBytes_same (m : Memory) (addr : Nat) (s : List Byte) :
    (m.writeBytes addr s).readBytes addr s.length = s := by
  apply List.ext_getElem (by simp)
  intro i h1 h2
  rw [Memory.readBytes_getElem, Memory.read_writeBytes_inside h2]

/-! ### The canonical form -/

theorem Memory.mem_insert {m : Memory} {a : Nat} {b : Byte} {c : Host.Cell} (h : c ∈ Memory.insert m a b) :
    c = (a, b) ∨ c ∈ m := by
  induction m with
  | nil => simpa [Memory.insert] using h
  | cons d m ih =>
    unfold Memory.insert at h
    split at h
    · simpa using h
    · split at h
      · simp only [List.mem_cons] at h ⊢
        tauto
      · simp only [List.mem_cons] at h ⊢
        rcases h with h | h
        · exact .inr (.inl h)
        · rcases ih h with h | h
          · exact .inl h
          · exact .inr (.inr h)

theorem Memory.pairwise_insert {m : Memory} {a : Nat} {b : Byte}
    (h : m.Pairwise fun c d => c.1 < d.1) : (Memory.insert m a b).Pairwise fun c d => c.1 < d.1 := by
  induction m with
  | nil => simp [Memory.insert]
  | cons c m ih =>
    rw [List.pairwise_cons] at h
    unfold Memory.insert
    split
    · next hlt =>
      refine List.pairwise_cons.mpr ⟨fun d hd => ?_, List.pairwise_cons.mpr h⟩
      rcases List.mem_cons.mp hd with rfl | hd
      · exact hlt
      · exact Nat.lt_trans hlt (h.1 d hd)
    · split
      · next heq => exact List.pairwise_cons.mpr ⟨fun d hd => by simpa [heq] using h.1 d hd, h.2⟩
      · next h1 h2 =>
        refine List.pairwise_cons.mpr ⟨fun d hd => ?_, ih h.2⟩
        rcases Memory.mem_insert hd with rfl | hd
        · simp only; omega
        · exact h.1 d hd

/-- Writing a byte keeps the canonical form. -/
theorem Memory.wf_write {m : Memory} (h : m.wf) (a : Nat) (b : Byte) : (m.write a b).wf := by
  unfold Memory.write
  split
  · exact ⟨h.1.filter _, fun c hc => h.2 c (List.mem_filter.mp hc).1⟩
  · next hb =>
    refine ⟨Memory.pairwise_insert h.1, fun c hc => ?_⟩
    rcases Memory.mem_insert hc with rfl | hc
    · exact hb
    · exact h.2 c hc

/-- Writing a buffer keeps the canonical form. -/
theorem Memory.wf_writeBytes {m : Memory} (h : m.wf) (addr : Nat) (s : List Byte) : (m.writeBytes addr s).wf := by
  induction s generalizing m addr with
  | nil => exact h
  | cons b s ih => exact ih (Memory.wf_write h addr b) (addr + 1)

theorem Memory.mem_write {m : Memory} {a : Nat} {b : Byte} {c : Host.Cell} (h : c ∈ m.write a b) :
    c ∈ m ∨ c.1 = a := by
  unfold Memory.write at h
  split at h
  · exact .inl (List.mem_filter.mp h).1
  · rcases Memory.mem_insert h with rfl | h
    · exact .inr rfl
    · exact .inl h

/-- Writing a buffer lists no address outside it. -/
theorem Memory.mem_writeBytes {m : Memory} {addr : Nat} {s : List Byte} {c : Host.Cell}
    (h : c ∈ m.writeBytes addr s) : c ∈ m ∨ (addr ≤ c.1 ∧ c.1 < addr + s.length) := by
  induction s generalizing m addr with
  | nil => exact .inl h
  | cons b s ih =>
    rw [List.length_cons]
    rcases ih h with h | ⟨h1, h2⟩
    · rcases Memory.mem_write h with h | h
      · exact .inl h
      · exact .inr ⟨by omega, by omega⟩
    · exact .inr ⟨by omega, by omega⟩

/-- Two memories in canonical form that read alike are the same memory. -/
theorem Memory.ext_of_wf {m m' : Memory} (h : m.wf) (h' : m'.wf) (hr : ∀ a, m.read a = m'.read a) : m = m' := by
  have read_lt : ∀ (m : Memory) (a : Nat), (∀ c ∈ m, a < c.1) → m.read a = Memory.unlisted := by
    intro m a
    induction m with
    | nil => intro _; rfl
    | cons c m ih =>
      intro hlt
      have h1 := hlt c (by simp)
      rw [Memory.read_cons, if_neg (by omega), ih fun d hd => hlt d (by simp [hd])]
  induction m generalizing m' with
  | nil =>
    cases m' with
    | nil => rfl
    | cons c m' =>
      have := hr c.1
      rw [Memory.read_cons, if_pos rfl, Memory.read_nil] at this
      exact absurd this.symm (h'.2 c (by simp))
  | cons c m ih =>
    have hc := h.1
    rw [List.pairwise_cons] at hc
    cases m' with
    | nil =>
      have := hr c.1
      rw [Memory.read_cons, if_pos rfl, Memory.read_nil] at this
      exact absurd this (h.2 c (by simp))
    | cons d m' =>
      have hd := h'.1
      rw [List.pairwise_cons] at hd
      have hcd : c.1 = d.1 := by
        rcases Nat.lt_trichotomy c.1 d.1 with hlt | heq | hgt
        · have := hr c.1
          rw [Memory.read_cons, if_pos rfl, read_lt (d :: m') c.1 (by
            intro e he
            rcases List.mem_cons.mp he with rfl | he
            · exact hlt
            · exact Nat.lt_trans hlt (hd.1 e he))] at this
          exact absurd this (h.2 c (by simp))
        · exact heq
        · have := hr d.1
          rw [Memory.read_cons d, if_pos rfl, read_lt (c :: m) d.1 (by
            intro e he
            rcases List.mem_cons.mp he with rfl | he
            · exact hgt
            · exact Nat.lt_trans hgt (hc.1 e he))] at this
          exact absurd this.symm (h'.2 d (by simp))
      have hb : c.2 = d.2 := by
        have := hr c.1
        rwa [Memory.read_cons, if_pos rfl, Memory.read_cons, if_pos hcd.symm] at this
      have hcd' : c = d := Prod.ext hcd hb
      subst hcd'
      congr 1
      refine ih ⟨hc.2, fun e he => h.2 e (by simp [he])⟩ ⟨hd.2, fun e he => h'.2 e (by simp [he])⟩ fun a => ?_
      have := hr a
      rw [Memory.read_cons, Memory.read_cons] at this
      by_cases ha : c.1 = a
      · subst ha
        rw [read_lt m c.1 hc.1, read_lt m' c.1 hd.1]
      · rwa [if_neg ha, if_neg ha] at this

end Sys2Proof.Machine
end

