-- ==== Sys2Proof/Laws/PerInstr.lean ====
section
/-! SUPPORT. A statement for each command: its word is the opcode table's, and it decodes to the command (spec
30_encoding.md R92, R95). -/

namespace Sys2Proof.Laws.Encoding

/-- The command is well formed, has a legal command word, and the decoder reads it back from that word. -/
def Statement (i : Instr) : Prop :=
  i.wellFormed = true ∧ (fieldsOf (encode i)).wellFormed = true ∧ decodeTableWord 32 (encode i).toNat = some i

theorem transform : Statement .transform := by unfold Statement; decide
theorem d64 : Statement .d64 := by unfold Statement; decide
theorem d64Way2 : Statement .d64Way2 := by unfold Statement; decide
theorem d64Way4 : Statement .d64Way4 := by unfold Statement; decide
theorem d64Way8 : Statement .d64Way8 := by unfold Statement; decide
theorem dispatch : Statement .dispatch := by unfold Statement; decide
theorem hReset : Statement .hReset := by unfold Statement; decide
theorem hWrite : Statement .hWrite := by unfold Statement; decide
theorem hFinalize : Statement .hFinalize := by unfold Statement; decide
theorem sha256d64 : Statement .sha256d64 := by unfold Statement; decide

end Sys2Proof.Laws.Encoding
end

