-- ==== Sys2Proof/Laws/Step.lean ====
section
/-! SUPPORT. What a step can do: which host action is taken, and what each kind of action answers. -/

namespace Sys2Proof.Machine

theorem step_of_script_nil {s : State} (h : s.script = []) : step s = .next s := by
  simp [step, h]

theorem step_of_script_cons {s : State} {a : HostAction} {rest : List HostAction} (h : s.script = a :: rest) :
    step s = State.act { s with script := rest } a := by
  simp [step, h]

/-- A register write by an agent that may write the instance. -/
theorem act_wr {s : State} {agent k n v : Nat} {x : Instance} (hx : s.insts[k]? = some x)
    (hw : x.FreeFor agent) : s.act (.wr agent k n v) = s.writeReg agent k n v x := by
  rcases hw with hw | hw <;> simp [State.act, hx, hw]

theorem act_rd {s : State} {agent k n : Nat} {x : Instance} (hx : s.insts[k]? = some x) :
    s.act (.rd agent k n) = s.readReg k n x := by
  simp [State.act, hx]

/-- Register 15 is `CMD`: a write that fits it issues the word. -/
theorem writeReg_cmd {s : State} {agent k v : Nat} {x : Instance} (hv : v < 2 ^ 32) :
    s.writeReg agent k 15 v x =
      State.issue { s with insts := s.insts.set k { x with writer := none } } k (BitVec.ofNat 32 v) := by
  simp only [State.writeReg, hostReg]
  rw [if_neg (by omega)]

/-- A value that fits is written to a register other than `CMD`, and the writing agent is recorded. -/
theorem writeReg_of_fits {s : State} {agent k n v : Nat} {x y : Instance} {r : HostReg} (hr : hostReg n = some r)
    (hy : writeHostReg x v r = some y) (hv : v < 2 ^ hostRegWidth s.params r) :
    s.writeReg agent k n v x = .next { s with insts := s.insts.set k { y with writer := some agent } } := by
  cases r <;> first | (simp [writeHostReg] at hy; done) | simp [State.writeReg, hr, hy, Nat.not_le.mpr hv]

/-- A value that does not fit is refused (log 12). -/
theorem writeReg_too_wide {s : State} {agent k n v : Nat} {x y : Instance} {r : HostReg} (hr : hostReg n = some r)
    (hy : writeHostReg x v r = some y) (hv : 2 ^ hostRegWidth s.params r ≤ v) :
    s.writeReg agent k n v x = .refused .hostValueTooWide := by
  cases r <;> first | (simp [writeHostReg] at hy; done) | simp [State.writeReg, hr, hy, hv]

/-- A legal word is performed as its command. -/
theorem issue_of_decode {s : State} {k : Nat} {c : Word} {i : Instr} (h : decode c = .ok i) :
    s.issue k c = exec i { s with sel := k } := by
  simp [State.issue, h]

/-- An illegal word raises `E_ILLEGAL_CMD`. -/
theorem issue_of_illegal {s : State} {k : Nat} {c : Word} {r : IllegalCommand} {x : Instance}
    (h : decode c = .error r) (hx : s.insts[k]? = some x) :
    s.issue k c = .next (State.raise { s with sel := k } x .illegalCmd) := by
  simp [State.issue, h, State.onCurrent, State.current, hx]

/-- The numbers of the register map and no others name a register (R36). -/
theorem hostReg_eq_none_iff (n : Nat) : hostReg n = none ↔ 15 < n := by
  constructor
  · intro h
    by_contra hn
    have : n ≤ 15 := by omega
    interval_cases n <;> simp [hostReg] at h
  · intro h
    unfold hostReg
    split <;> first | rfl | omega

/-- Everything a register write other than of `CMD` can do when it answers a next state. -/
theorem writeReg_next_cases {s t : State} {agent k n v : Nat} {x : Instance}
    (h : s.writeReg agent k n v x = .next t) :
    (n = 15 ∧ v < 2 ^ 32 ∧
        State.issue { s with insts := s.insts.set k { x with writer := none } } k (BitVec.ofNat 32 v) = .next t) ∨
      (n ≠ 15 ∧ ∃ r y, hostReg n = some r ∧ writeHostReg x v r = some y ∧ v < 2 ^ hostRegWidth s.params r ∧
        t = { s with insts := s.insts.set k { y with writer := some agent } }) := by
  have hcmd : hostReg n = some .cmd → n = 15 := by
    intro hc
    have : n ≤ 15 := by
      by_contra hn
      rw [(hostReg_eq_none_iff n).mpr (by omega)] at hc
      cases hc
    interval_cases n <;> first | rfl | simp [hostReg] at hc
  unfold State.writeReg at h
  split at h
  · cases h
  · next hc =>
    split at h
    · cases h
    · exact .inl ⟨hcmd hc, by omega, h⟩
  · next r hne hr =>
    refine .inr ⟨fun hn => ?_, r, ?_⟩
    · subst hn
      simp only [hostReg, Option.some.injEq] at hr
      exact hne hr.symm
    split at h
    · cases h
    · next y hy =>
      split at h
      · cases h
      · cases h
        exact ⟨y, hr, hy, by omega, rfl⟩

/-- Everything issuing a word can do when it answers a next state. -/
theorem issue_next_cases {s t : State} {k : Nat} {c : Word} (h : s.issue k c = .next t) :
    (∃ i, decode c = .ok i ∧ exec i { s with sel := k } = .next t) ∨
      ∃ r x, decode c = .error r ∧ s.insts[k]? = some x ∧ t = State.raise { s with sel := k } x .illegalCmd := by
  unfold State.issue at h
  split at h
  · next i hi => exact .inl ⟨i, hi, h⟩
  · next r hr =>
    refine .inr ⟨r, ?_⟩
    simp only [State.onCurrent, State.current] at h
    split at h
    · cases h
    · next x hx => cases h; exact ⟨x, hr, hx, rfl⟩

/-- What a host write of a register other than `CMD` leaves alone in the instance (R36). -/
theorem writeHostReg_keeps {x y : Instance} {v : Nat} {r : HostReg} (h : writeHostReg x v r = some y) :
    y.buf = x.buf ∧ y.bufLen = x.bufLen ∧ y.total = x.total ∧ y.hst = x.hst ∧ y.err = x.err ∧ y.writer = x.writer := by
  cases r <;> simp [writeHostReg] at h <;> subst h <;> simp

/-- Everything a host action can do when it answers a next state. -/
theorem act_next_cases {s t : State} {a : HostAction} (h : s.act a = .next t) :
    (∃ agent k v x, a = .wr agent k 15 v ∧ s.insts[k]? = some x ∧ x.FreeFor agent ∧ v < 2 ^ 32 ∧
        State.issue { s with insts := s.insts.set k { x with writer := none } } k (BitVec.ofNat 32 v) = .next t) ∨
      (∃ agent k n v x r y, a = .wr agent k n v ∧ s.insts[k]? = some x ∧ x.FreeFor agent ∧ n ≠ 15 ∧
        hostReg n = some r ∧ writeHostReg x v r = some y ∧ v < 2 ^ hostRegWidth s.params r ∧
        t = { s with insts := s.insts.set k { y with writer := some agent } }) ∨
      (∃ agent k n v x, a = .rd agent k n ∧ s.insts[k]? = some x ∧
        (hostReg n).bind (readHostReg s.cfg x) = some v ∧ t = { s with received := .reg k n v :: s.received }) ∨
      (∃ addr bytes, a = .mem addr bytes ∧ bufferExists s.params ⟨addr, bytes.length⟩ = true ∧
        t = { s with mem := s.mem.writeBytes addr bytes }) ∨
      (∃ addr len, a = .get addr len ∧ bufferExists s.params ⟨addr, len⟩ = true ∧
        t = { s with received := .bytes addr (s.mem.readBytes addr len) :: s.received }) ∨
      (a = .hwReset ∧ t = s.hwReset) := by
  cases a with
  | wr agent k n v =>
    simp only [State.act] at h
    cases hx : s.insts[k]? with
    | none => simp [hx] at h
    | some x =>
      simp only [hx] at h
      split at h
      · cases h
      · next hw =>
        have hf : x.FreeFor agent := by
          unfold Instance.FreeFor
          cases hx : x.writer <;> simp_all
        rcases writeReg_next_cases h with ⟨rfl, hv, h⟩ | ⟨hn, r, y, hr, hy, hv, rfl⟩
        · exact .inl ⟨agent, k, v, x, rfl, hx, hf, hv, h⟩
        · exact .inr (.inl ⟨agent, k, n, v, x, r, y, rfl, hx, hf, hn, hr, hy, hv, rfl⟩)
  | rd agent k n =>
    simp only [State.act] at h
    cases hx : s.insts[k]? with
    | none => simp [hx] at h
    | some x =>
      simp only [hx, State.readReg] at h
      cases hv : (hostReg n).bind (readHostReg s.cfg x) with
      | none => simp [hv] at h
      | some v =>
        simp only [hv] at h
        cases h
        exact .inr (.inr (.inl ⟨agent, k, n, v, x, rfl, hx, hv, rfl⟩))
  | mem addr bytes =>
    simp only [State.act] at h
    split at h <;> cases h
    next hb => exact .inr (.inr (.inr (.inl ⟨addr, bytes, rfl, hb, rfl⟩)))
  | get addr len =>
    simp only [State.act] at h
    split at h <;> cases h
    next hb => exact .inr (.inr (.inr (.inr (.inl ⟨addr, len, rfl, hb, rfl⟩))))
  | hwReset => cases h; exact .inr (.inr (.inr (.inr (.inr ⟨rfl, rfl⟩))))

/-- A host's data-space access is made exactly when each of its bytes has an address of the space (R16, R60). -/
theorem bufferExists_iff (p : Params) (b : Buffer) :
    bufferExists p b = true ↔ ∀ a, b.addr ≤ a → a < b.addr + b.len → a < 2 ^ p.aw := by
  simp only [bufferExists, outOfRange, Bool.or_eq_true, beq_iff_eq, Bool.not_eq_true', decide_eq_false_iff_not]
  constructor
  · intro h a h1 h2; omega
  · intro h
    by_cases h0 : b.len = 0
    · exact .inl h0
    · exact .inr (by have := h (b.addr + b.len - 1) (by omega) (by omega); omega)

theorem bufferExists_eq_false_iff (p : Params) (b : Buffer) :
    bufferExists p b = false ↔ ∃ a, b.addr ≤ a ∧ a < b.addr + b.len ∧ 2 ^ p.aw ≤ a := by
  rw [← Bool.not_eq_true, bufferExists_iff]
  simp only [Classical.not_forall, Nat.not_lt, exists_prop]

end Sys2Proof.Machine
end

