-- ==== Sys2Proof/Tests/Slice0.lean ====
section
/-! SUPPORT. The model's own tests, with expected values taken from the spec's examples (95_test_vectors.md and the
rules' own), and for every statement with hypotheses a witness that meets them. -/

namespace Sys2Proof.Tests

open Sys2Proof.Machine

set_option maxRecDepth 20000

/-! ### Well-formedness: each check refuses an ill-formed term -/

theorem test_wellFormed_refuses_reserved_bits : (fieldsOf 0x00000401).rsvOk = false := by decide
theorem test_wellFormed_refuses_opcode_zero : (fieldsOf 0x00000000).opcOk = false := by decide
theorem test_wellFormed_refuses_opcode_eight : (fieldsOf 0x00000008).opcOk = false := by decide
theorem test_wellFormed_refuses_width_outside_d64 : (fieldsOf 0x00000103).logwOk = false := by decide
theorem test_wellFormed_refuses_each :
    [0x80000001, 0x00000000, 0x000000ff, 0x00000307].all (fun c => !(fieldsOf c).wellFormed) = true := by decide
theorem test_wellFormed_refuses_write_of_status :
    HostAction.wellFormed Params.default (.wr 0 0 13 0) = false := by decide
theorem test_wellFormed_refuses_read_of_cmd : HostAction.wellFormed Params.default (.rd 0 0 15) = false := by decide
theorem test_wellFormed_refuses_absent_instance :
    HostAction.wellFormed Params.default (.rd 0 1 0) = false := by decide
theorem test_wellFormed_refuses_too_wide_value :
    HostAction.wellFormed Params.default (.wr 0 0 0 0x100000000) = false := by decide
theorem test_wellFormed_accepts_wide_address :
    HostAction.wellFormed Params.default (.wr 0 0 8 0xffffffffffffffff) = true := by decide

/-! ### Decoding: every command's word written out from format C (R91, R92), and words of each illegal group (R96) -/

theorem test_decode_transform : decode 0b0000000000000000000000_00_00000001 = .ok .transform := by decide
theorem test_decode_d64 : decode 0b0000000000000000000000_00_00000010 = .ok .d64 := by decide
theorem test_decode_d64Way2 : decode 0b0000000000000000000000_01_00000010 = .ok .d64Way2 := by decide
theorem test_decode_d64Way4 : decode 0b0000000000000000000000_10_00000010 = .ok .d64Way4 := by decide
theorem test_decode_d64Way8 : decode 0b0000000000000000000000_11_00000010 = .ok .d64Way8 := by decide
theorem test_decode_dispatch : decode 0b0000000000000000000000_00_00000011 = .ok .dispatch := by decide
theorem test_decode_hReset : decode 0b0000000000000000000000_00_00000100 = .ok .hReset := by decide
theorem test_decode_hWrite : decode 0b0000000000000000000000_00_00000101 = .ok .hWrite := by decide
theorem test_decode_hFinalize : decode 0b0000000000000000000000_00_00000110 = .ok .hFinalize := by decide
theorem test_decode_sha256d64 : decode 0b0000000000000000000000_00_00000111 = .ok .sha256d64 := by decide
theorem test_decode_refuses_reserved : decode 0x00000402 = .error .reservedBits := by decide
theorem test_decode_refuses_opcode : decode 0x00000308 = .error .unassignedOpcode := by decide
theorem test_decode_refuses_width : decode 0x00000101 = .error .widthField := by decide

/-! ### Words (examples of R120 to R129) -/

theorem test_add32_wraps : add32 0xfffffff0 0x00000020 = 0x00000010 := by decide
theorem test_rotr : rotr 7 0x00000001 = 0x02000000 ∧ rotr 7 0x6a09e667 = 0xced413cc := by decide
theorem test_shr : shr 3 0x80000000 = 0x10000000 ∧ shr 10 0xffffffff = 0x003fffff := by decide
theorem test_ch : ch 0x510e527f 0x9b05688c 0x1f83d9ab = 0x1f85c98c := by decide
theorem test_maj : maj 0x6a09e667 0xbb67ae85 0x3c6ef372 = 0x3a6fe667 := by decide
theorem test_bigSigma0 : bigSigma0 0x6a09e667 = 0xce20b47e := by decide
theorem test_bigSigma1 : bigSigma1 0x510e527f = 0x3587272b := by decide
theorem test_smallSigma0 : smallSigma0 0x12345678 = 0xe7fce6ee := by decide
theorem test_smallSigma1 : smallSigma1 0x12345678 = 0xa1f78649 := by decide

/-! ### Schedule, round, compression, padding -/

/-- The padded one-block message "abc" (R150). -/
def abc : List Byte := [0x61, 0x62, 0x63, 0x80] ++ List.replicate 59 0 ++ [0x18]

/-- R150, R151: words 0, 15, 16 and 17 of the block "abc". -/
theorem test_schedule_abc :
    [0, 15, 16, 17].map (fun t => (schedule abc).getD t 0) = [0x61626380, 0x00000018, 0x61626380, 0x000f0000] := by
  decide +kernel

/-- R162: round 0 of the block "abc" from `IV`. -/
theorem test_round_abc : (round Rom.IV 0x428a2f98 0x61626380).toList =
    [0x5d6aebcd, 0x6a09e667, 0xbb67ae85, 0x3c6ef372, 0xfa2a4622, 0x510e527f, 0x9b05688c, 0x1f83d9ab] := by
  decide +kernel

/-- R165: the block of zeros from the all-zero state. -/
theorem test_compress_zero : (compress ⟨0, 0, 0, 0, 0, 0, 0, 0⟩ (List.replicate 64 0)).toList =
    [0x7ca51614, 0x425c3ba8, 0xce54dd2f, 0xc2020ae7, 0xb6e574d1, 0x98136d0f, 0xae7e26cc, 0xbf0be7a6] := by
  decide +kernel

/-- R222: no zero bytes for 55 bytes, 63 of them for 56. -/
theorem test_pad : (pad 55).length = 9 ∧ (pad 56).length = 72 ∧
    pad 0 = [0x80] ++ List.replicate 63 0 := by decide

/-! ### One step of each command, on small states -/

/-- A space of 4096 bytes with a hole of 16, two instances, and no two-lane backend. -/
def params : Params where
  aw := 12
  unmapped := [⟨0x800, 0x10⟩]
  cap := ["wide"]
  candidates := [⟨"slow", [.core, .d64x1], .always, 9⟩, ⟨"fast", [.core, .d64x4, .d64x8], .has "wide", 1⟩,
    ⟨"absent", [.core, .d64x2], .has "other", 0⟩]
  selftestText := Params.defaultText
  selftestOk := true
  ninst := 2

/-- The registers of an instance with a source buffer and a destination buffer. -/
def inst (srcAddr srcLen dstAddr dstLen cnt : Nat) : Instance :=
  { Instance.reset with srcAddr := srcAddr, srcLen := srcLen, dstAddr := dstAddr, dstLen := dstLen, cnt := cnt }

/-- A dispatched machine with these parameters whose instance 0 is `x`. -/
def machine (x : Instance) : State :=
  { State.resetWith params with
    insts := [x, inst 0 64 0x200 32 0]
    abt := ⟨some "fast", some "slow", none, some "fast", some "fast"⟩
    cfg := ⟨true, false, true, false, true, true⟩ }

/-- The machine with these bytes in its data space. -/
def machineWith (m : Memory) (x : Instance) : State := { machine x with mem := m }

/-- The error code of instance `k` after a command. -/
def errOf (r : Result) (k : Nat) : Option ErrCode :=
  match r with
  | .next t => t.insts[k]?.map (·.err)
  | .fault _ => none
  | .refused _ => none

/-- What a command leaves, seen by `f` in the state and in the registers of instance 0. -/
def after {α : Type} (r : Result) (f : State → Instance → α) : Option α :=
  match r with
  | .next t => t.insts[0]?.map (f t)
  | .fault _ => none
  | .refused _ => none

/-- R170: `H` = `IV` and the block "abc" at `SRC_ADDR`. -/
theorem test_transform_abc :
    after (exec .transform (machineWith (Memory.writeBytes [] 0x10 abc) (inst 0x10 64 0 0 1)))
      (fun t y => (y.h.toList, y.err, t.mem.read 0x10)) =
    some ([0xba7816bf, 0x8f01cfea, 0x414140de, 0x5dae2223, 0xb00361a3, 0x96177a9c, 0xb410ff61, 0xf20015ad], .ok,
      0x61) := by decide +kernel

/-- R171 (b): a length that is not `64 * CNT`; it comes before the range (R252). -/
theorem test_transform_length : errOf (exec .transform (machine (inst 0xfff 65 0 0 1))) 0 = some .length := by
  decide +kernel

/-- R182: the double hash of 64 zero bytes, stored at `DST_ADDR`; memory that nothing has written reads as 0. -/
theorem test_d64_zero :
    after (exec .d64 (machine (inst 0x100 64 0x200 32 0))) (fun t y => (t.mem.readBytes 0x200 32, y.h, y.err)) =
    some (encWords [0xe2f61c3f, 0x71d1defd, 0x3fa999df, 0xa3695375, 0x5c690689, 0x799962b4, 0x8bebd836, 0x974e8cf9],
      Rom.IV, .ok) := by decide +kernel

/-- R263: buffers that share one byte. -/
theorem test_d64_overlap : errOf (exec .d64 (machine (inst 0x100 64 0x13f 32 0))) 0 = some .overlap := by
  decide +kernel

/-- R188: the example's lane 0 holds bytes 0x00 to 0x3f, lane 1 bytes 0x65 to 0xa4; digests in lane order. -/
theorem test_d64Way2_example :
    after (exec .d64Way2 { machineWith (Memory.writeBytes [] 0 ((List.range 128).map fun k =>
        BitVec.ofNat 8 (k + 37 * (k / 64)))) (inst 0 128 0x200 64 0) with
      cfg := ⟨true, false, true, true, false, false⟩ }) (fun t y => (t.mem.readBytes 0x200 64, y.err)) =
    some (encWords [0x01c9f464, 0x780a1b6a, 0xf4eb400f, 0xe2f2896c, 0xfb2169f5, 0xa6570143, 0x9e4c2c4e, 0x213903ef,
      0x4ed879ce, 0xe1931f3a, 0xb81070d1, 0x02d9a93c, 0x5d4d2de8, 0x96db7352, 0xc42780c0, 0xf9450e91], .ok) := by
  decide +kernel

/-- R258: no two-lane backend is installed. -/
theorem test_d64Way2_unavailable : errOf (exec .d64Way2 (machine (inst 0 128 0x200 64 0))) 0 =
    some .widthUnavailable := by decide +kernel

/-- R267: with `CFG.W4` = 0 and `DST_LEN` = 0 the width is reported. -/
theorem test_d64Way4_priority :
    errOf (exec .d64Way4 { machine (inst 0 256 0x200 0 0) with cfg := ⟨true, false, true, false, false, false⟩ }) 0 =
    some .widthUnavailable := by decide +kernel

/-- R187, R63: eight lanes need 512 and 256 bytes. -/
theorem test_d64Way8_length : errOf (exec .d64Way8 (machine (inst 0 512 0x400 128 0))) 0 = some .length := by
  decide +kernel

/-- R262: one byte of the destination is unmapped. -/
theorem test_d64Way8_bus : errOf (exec .d64Way8 (machine (inst 0 512 0x701 256 0))) 0 = some .bus := by
  decide +kernel

/-- R200: `AVAIL(2)` false, `AVAIL(4)` and `AVAIL(8)` true give `CFG` = 0x35. -/
theorem test_dispatch_cfg :
    after (exec .dispatch (State.resetWith params)) (fun t y => (t.cfg.word, t.abt.core, t.abt.d64x2, y.err)) =
    some (0x00000035, some "fast", none, .ok) := by decide +kernel

/-- R265: a failed Self-Test gives `CFG` = `DEAD` alone. -/
theorem test_dispatch_selftest :
    after (exec .dispatch (State.resetWith { params with selftestOk := false })) (fun t y => (t.cfg.word, y.err)) =
    some (0x00000002, .selftest) := by decide +kernel

/-- R221: after H_FINALIZE, H_RESET gives `H0` = 0x6a09e667 and `STATUS` = 0. -/
theorem test_hReset_after_finalize :
    after (exec .hReset (machine
      { inst 0 0 0 0 0 with h := ⟨1, 2, 3, 4, 5, 6, 7, 8⟩, total := 5, hst := .finalized, err := .range })) (fun _ y => (y.h.a, y.h.h, y.total, y.statusWord)) =
    some (0x6a09e667, 0x5be0cd19, 0, 0) := by decide +kernel

/-- R223: 60 bytes buffered and 70 written leave 2 buffered, bytes 68 and 69 of the source. -/
theorem test_hWrite_example :
    after (exec .hWrite (machineWith [(0x40 + 68, 0xaa), (0x40 + 69, 0xbb)]
      { inst 0x40 70 0 0 0 with bufLen := 60, total := 60, hst := .accumulating }))
      (fun _ y => (y.bufLen, y.buffered, y.total, y.hst)) =
    some (2, [0xaa, 0xbb], 130, .accumulating) := by decide +kernel

/-- R264: `TOTAL + SRC_LEN` may not reach `2^61`. -/
theorem test_hWrite_tooLong :
    errOf (exec .hWrite (machine
      { inst 0 1 0 0 0 with total := 0x1fffffffffffffff, bufLen := 63, hst := .accumulating })) 0 = some .tooLong := by decide +kernel

/-- R225: the empty message; `STATUS` = 0x200. -/
theorem test_hFinalize_empty :
    after (exec .hFinalize (machine (inst 0 0 0x80 32 0))) (fun t y => (t.mem.readBytes 0x80 32, y.statusWord)) =
    some (encWords [0xe3b0c442, 0x98fc1c14, 0x9afbf4c8, 0x996fb924, 0x27ae41e4, 0x649b934c, 0xa495991b, 0x7852b855],
      0x200) := by decide +kernel

/-- R259: a second H_FINALIZE. -/
theorem test_hFinalize_twice :
    errOf (exec .hFinalize (machine { inst 0 0 0x80 32 0 with hst := .finalized })) 0 = some .hasherState := by
  decide +kernel

/-- R240 with R182: one block of zeros. -/
theorem test_sha256d64_zero :
    after (exec .sha256d64 (machine (inst 0x100 64 0x200 32 1))) (fun t y => (t.mem.readBytes 0x200 32, y.err)) =
    some (encWords [0xe2f61c3f, 0x71d1defd, 0x3fa999df, 0xa3695375, 0x5c690689, 0x799962b4, 0x8bebd836, 0x974e8cf9],
      .ok) := by decide +kernel

/-- R261: the destination ends one byte past the top. -/
theorem test_sha256d64_range : errOf (exec .sha256d64 (machine (inst 0 64 0xfe1 32 1))) 0 = some .range := by
  decide +kernel

/-- R241: `CNT` = 7 with widths 2 and 4. -/
theorem test_plan : plan ⟨true, false, true, true, true, false⟩ 7 = [4, 2, 1] := by decide

/-! ### Memory and reset -/

theorem test_reset_memory_wf : State.reset.mem.wf := by decide

/-- Writing what an unlisted address reads as removes the entry. -/
theorem test_memory_canonical : Memory.write (Memory.write [] 7 0xff) 7 0x00 = [] := by decide

theorem test_memory_sorted : Memory.writeBytes [(2, 0x22)] 1 [0x11, 0x00, 0x33] = [(1, 0x11), (3, 0x33)] := by decide

/-- R16, R60: the host stores across the unmapped hole, where the engine admits no buffer. -/
theorem test_host_reaches_unmapped :
    after (step { machine (inst 0 0 0 0 0) with script := [.mem 0x7ff [0x11, 0x22, 0x33]] })
      (fun t _ => (t.mem, hasUnmapped t.params ⟨0x7ff, 3⟩)) = some ([(0x7ff, 0x11), (0x800, 0x22), (0x801, 0x33)], true) := by
  decide +kernel

/-- The engine runs the first command after reset: an H_RESET before dispatch faults (R257). -/
theorem test_first_step : errOf (step (State.reset.withFetchWord 32 0x00000004)) 0 = some .notDispatched := by
  decide +kernel

theorem test_table_word : decodeTableWord 32 0x00000302 = some .d64Way8 := by decide

/-- A pseudo-command's expansion (R99) is well formed. -/
theorem test_script : (Script.sha256d64 0 1 0x100 0x40 3).all (HostAction.wellFormed params) = true := by decide

/-! ### Witnesses: for each statement with hypotheses, a state and operands that meet them -/

theorem admitted_of_checks {p : Params} {b : Buffer} (h : (outOfRange p b || hasUnmapped p b) = false) :
    Admitted p b :=
  (admitted_iff p b).mpr (by simpa using h)

theorem disjoint_of_check {b c : Buffer} (h : overlaps b c = false) : Disjoint b c := (overlaps_eq_false_iff b c).mp h

theorem machine_ready (x : Instance) : (machine x).Ready := ⟨rfl, rfl⟩

theorem machine_current (x : Instance) : (machine x).current = some x := rfl

theorem params_wf : params.Wf where
  aw_pos := by decide
  ninst_pos := by decide
  text_len := by simp [params, Params.defaultText]
  core_candidate := ⟨_, List.mem_cons_self .., by decide⟩
  d64x1_candidate := ⟨_, List.mem_cons_self .., by decide⟩

theorem inst_ok {a b c d n : Nat} (h : a < 4096 ∧ b < 4096 ∧ c < 4096 ∧ d < 4096 ∧ n < 4096) :
    (inst a b c d n).Ok params where
  srcAddr_lt := h.1
  srcLen_lt := h.2.1
  dstAddr_lt := h.2.2.1
  dstLen_lt := h.2.2.2.1
  cnt_lt := h.2.2.2.2
  bufLen_eq := rfl
  total_lt := by simp [inst, Instance.reset]
  fresh_total := fun _ => rfl

/-- A machine with a full register and a non-empty data space meets the invariant. -/
def full : State := machineWith [(0, 1), (0xfff, 2)] (inst 0xfff 0xfff 0xfff 0xfff 0xfff)

theorem full_inv : full.Inv where
  params_wf := params_wf
  insts_len := rfl
  sel_lt := by decide
  insts_ok := by
    intro x hx
    have : x = inst 0xfff 0xfff 0xfff 0xfff 0xfff ∨ x = inst 0 64 0x200 32 0 := by
      simpa [full, machineWith, machine] using hx
    rcases this with rfl | rfl <;> exact inst_ok (by decide)
  cfg_ok := ⟨by decide, rfl, rfl, rfl, rfl, fun _ => ⟨rfl, rfl⟩, fun h => by cases h⟩
  mem_wf := by decide
  mem_inside := by decide

theorem witness_DecodeAndEncodeAgree :
    Instr.sha256d64.wellFormed = true ∧ decode 0x00000302 = .ok .d64Way8 := by decide

theorem witness_DecodingFollowsTheRulesChain :
    (machine (inst 0 0 0 0 0)).insts[1]? = some (inst 0 64 0x200 32 0) ∧ (decode 0xffffffff).toOption = none ∧
      (decode 0x00000008).toOption = none := by decide

theorem witness_StepRunsTheDecodedCommand :
    ∃ (s : State) (x : Instance), s.script = .wr 7 1 15 0x302 :: [.hwReset] ∧ s.insts[1]? = some x ∧ x.FreeFor 7 ∧
      0x302 < 2 ^ 32 ∧ decode (BitVec.ofNat 32 0x302) = .ok .d64Way8 ∧ s.insts[0]? = some (inst 0 0 0 0 0) :=
  ⟨{ machine (inst 0 0 0 0 0) with script := [.wr 7 1 15 0x302, .hwReset] }, inst 0 64 0x200 32 0, rfl, rfl, .inl rfl,
    by decide, by decide, rfl⟩

/-- An agent in the middle of its own writes may write on, up to the word 0xffffffff. -/
theorem witness_StepRunsTheDecodedCommand_writer :
    ∃ (s : State) (x : Instance), s.script = [.wr 7 0 15 0xffffffff] ∧ s.insts[0]? = some x ∧ x.FreeFor 7 ∧
      0xffffffff < 2 ^ 32 :=
  ⟨{ machine { inst 0 0 0 0 0 with writer := some 7 } with script := [.wr 7 0 15 0xffffffff] },
    { inst 0 0 0 0 0 with writer := some 7 }, rfl, rfl, .inr rfl, by decide⟩

theorem witness_EngineWaitsWithoutAHostAction : State.reset.script = [] := rfl

theorem witness_IllegalWordFaultsBeforeCfgIsLookedAt :
    State.reset.insts[0]? = some Instance.reset ∧ (∀ i : Instr, (0x00000102 + 1 : Word) ≠ encode i) ∧
      ∀ i : Instr, (0 : Word) ≠ encode i := by
  refine ⟨rfl, fun i => ?_, fun i => ?_⟩ <;> cases i <;> decide

theorem witness_StepTakesOneActionAndKeepsTheParameters :
    ∃ s t : State, s.insts.length = s.params.ninst ∧ s.script = [.hwReset] ∧ step s = .next t :=
  ⟨{ full with script := [.hwReset] }, _, rfl, rfl, rfl⟩

theorem witness_HostReadReturnsTheRegisterAndChangesNothing :
    ∀ w ∈ ([(0, 0x6a09e667), (7, 0x5be0cd19), (8, 0xfff), (12, 5), (13, 0), (14, 0x35)] : List (Nat × Nat)),
      ∃ (s : State) (x : Instance), s.script = [.rd 0 0 w.1] ∧ s.insts[0]? = some x ∧
        [x.h.a.toNat, x.h.b.toNat, x.h.c.toNat, x.h.d.toNat, x.h.e.toNat, x.h.f.toNat, x.h.g.toNat, x.h.h.toNat,
          x.srcAddr, x.srcLen, x.dstAddr, x.dstLen, x.cnt, x.statusWord.toNat, s.cfg.word.toNat][w.1]? = some w.2 := by
  intro w h
  refine ⟨{ machine (inst 0xfff 0 0 0 5) with script := [.rd 0 0 w.1] }, inst 0xfff 0 0 0 5, rfl, rfl, ?_⟩
  revert w; decide

theorem witness_HostWriteReplacesOneRegister :
    ∀ w ∈ ([(0, 0xffffffff), (7, 0), (8, 0xfff), (12, 0xfff)] : List (Nat × Nat)),
      ∃ (s : State) (x : Instance), s.script = [.wr 3 0 w.1 w.2] ∧ s.insts[0]? = some x ∧ x.FreeFor 3 ∧ w.1 ≤ 12 ∧
        w.2 < 2 ^ HostAction.width s.params w.1 := by
  intro w h
  refine ⟨{ machine (inst 0 0 0 0 0) with script := [.wr 3 0 w.1 w.2] }, inst 0 0 0 0 0, rfl, rfl, .inl rfl, ?_⟩
  revert w; decide

theorem witness_UnlistedHostAccessesAreRefused :
    (∃ (s : State) (x : Instance), s.script = [.rd 0 0 15] ∧ s.insts[0]? = some x ∧ 15 ≤ 15) ∧
    (∀ n ∈ [13, 14, 16], ∃ (s : State) (x : Instance), s.script = [.wr 0 0 n 0] ∧ s.insts[0]? = some x ∧
      x.FreeFor 0 ∧ (n = 13 ∨ n = 14 ∨ 15 < n)) ∧
    (∀ w ∈ ([(0, 0x100000000), (12, 0x1000), (15, 0x100000000)] : List (Nat × Nat)),
      ∃ (s : State) (x : Instance), s.script = [.wr 0 0 w.1 w.2] ∧ s.insts[0]? = some x ∧ x.FreeFor 0 ∧
        (w.1 ≤ 12 ∨ w.1 = 15) ∧ 2 ^ HostAction.width s.params w.1 ≤ w.2) ∧
    (∃ (s : State) (x : Instance), s.script = [.wr 0 0 0 0] ∧ s.insts[0]? = some x ∧ x.writer = some 1 ∧ 1 ≠ 0) ∧
    ∃ s r : State, s.script = [.rd 0 2 0] ∧ r.script = [.wr 0 2 0 0] ∧ s.insts.length ≤ 2 ∧ r.insts.length ≤ 2 := by
  refine ⟨⟨{ machine (inst 0 0 0 0 0) with script := [.rd 0 0 15] }, _, rfl, rfl, Nat.le_refl _⟩, fun n h => ?_,
    fun w h => ?_,
    ⟨{ machine { inst 0 0 0 0 0 with writer := some 1 } with script := [.wr 0 0 0 0] }, _, rfl, rfl, rfl, by decide⟩,
    { machine (inst 0 0 0 0 0) with script := [.rd 0 2 0] }, { machine (inst 0 0 0 0 0) with script := [.wr 0 2 0 0] },
    rfl, rfl, by decide, by decide⟩
  · exact ⟨{ machine (inst 0 0 0 0 0) with script := [.wr 0 0 n 0] }, _, rfl, rfl, .inl rfl, by revert n; decide⟩
  · exact ⟨{ machine (inst 0 0 0 0 0) with script := [.wr 0 0 w.1 w.2] }, _, rfl, rfl, .inl rfl, by
      revert w; decide⟩

/-- The last two bytes of the space, a buffer across the unmapped hole, no bytes at all; and one byte too far. -/
theorem witness_HostReachesOnlyExistingBytes :
    (∀ b ∈ [(0xffe, 2), (0x7ff, 0x12), (0x1000, 0)], ∀ a, b.1 ≤ a → a < b.1 + b.2 → a < 2 ^ params.aw) ∧
      mapped params 0x800 = false ∧ ∃ a, 0xfff ≤ a ∧ a < 0xfff + 2 ∧ 2 ^ params.aw ≤ a := by
  refine ⟨fun b hb a h1 h2 => ?_, by decide, 0x1000, by decide⟩
  show a < 4096
  fin_cases hb <;> simp only at h1 h2 <;> omega

theorem witness_ResetLeavesTheValuesOfTheTable :
    ∃ s : State, (∃ r rest, r.params = params ∧ r.script = HostAction.hwReset :: rest ∧ step r = .next s) ∧
      s.insts ≠ [] :=
  ⟨_, ⟨{ full with script := [.hwReset] }, [], rfl, rfl, rfl⟩, by decide⟩

theorem witness_ResetStateMeetsTheInvariant : params.Wf := params_wf

theorem witness_EveryStepKeepsTheInvariant :
    ∃ s t : State, s.Inv ∧ s.script = [.wr 0 0 12 1] ∧ step s = .next t :=
  ⟨{ full with script := [.wr 0 0 12 1] }, _,
    ⟨full_inv.params_wf, full_inv.insts_len, full_inv.sel_lt, full_inv.insts_ok, full_inv.cfg_ok, full_inv.mem_wf,
      full_inv.mem_inside⟩, rfl, rfl⟩

theorem witness_ConfigurationIsWrittenOnce :
    (∃ s t : State, step s = .next t ∧ t.cfg ≠ s.cfg ∧ s.cfg.valid = false) ∧
      ∃ s t : State, step s = .next t ∧ t.abt ≠ s.abt ∧ s.cfg.valid = true :=
  ⟨⟨{ State.resetWith params with script := [.wr 0 0 15 3] }, _, rfl, by decide, rfl⟩,
    ⟨{ full with script := [.hwReset] }, _, rfl, by decide, rfl⟩⟩

/-- A dead engine given an illegal length reports `E_DEAD`, the first of the checks that fail; and a command that fails
none. -/
theorem witness_TheFirstFailingCheckIsReported :
    (∃ (s : State) (x : Instance), s.insts[0]? = some x ∧ IssueFails s x 1 .dead ∧ IssueFails s x 1 .length ∧
      ∀ e' : ErrCode, e'.code.toNat < ErrCode.dead.code.toNat → ¬IssueFails s x 1 e') ∧
    (∃ (s : State) (x : Instance), s.insts[0]? = some x ∧ IssueFails s x 1 .bus ∧
      ∀ e' : ErrCode, e'.code.toNat < ErrCode.bus.code.toNat → ¬IssueFails s x 1 e') ∧
    ∃ (s : State) (x : Instance), s.insts[0]? = some x ∧ ∀ e : ErrCode, ¬IssueFails s x 4 e := by
  have h1 : decode 1 = .ok .transform := by decide
  have h4 : decode 4 = .ok .hReset := by decide
  refine ⟨⟨{ machine (inst 0 0 0 0 1) with cfg := ⟨false, true, false, false, false, false⟩ }, inst 0 0 0 0 1, rfl, ?_,
    ?_, fun e' h => ?_⟩, ⟨machine (inst 0x7ff 64 0 0 1), inst 0x7ff 64 0 0 1, rfl, ?_, fun e' h => ?_⟩,
    machine (inst 0 0 0 0 0), _, rfl, fun e => ?_⟩
  · rw [IssueFails, h1]; rfl
  · rw [IssueFails, h1]; exact ⟨(0, 64 * 1), by simp [requiredLengths, inst], by decide⟩
  · rw [IssueFails, h1]; cases e' <;> first | exact fun h => h | exact absurd h (by decide)
  · rw [IssueFails, h1]; exact ⟨⟨0x7ff, 64⟩, by simp [readsOf, Instance.src, inst], 0x800, by decide⟩
  · rw [IssueFails, h1]
    cases e' <;> first | exact absurd h (by decide) | skip
    all_goals simp [CheckFails, machine, batchWidth, requiredLengths, readsOf, writesOf, Instance.src, inst,
      State.resetWith, params]
  · rw [IssueFails, h4]
    cases e <;> simp [CheckFails, machine, batchWidth, requiredLengths, readsOf, writesOf]

theorem witness_RaisingAFaultChangesOnlyTheErrorCode :
    (machine (inst 0 0 0 0 0)).current = some (inst 0 0 0 0 0) := rfl

theorem witness_FaultsArePrecise :
    (∃ (s t : State) (x y : Instance), s.insts[0]? = some x ∧ s.issue 0 0xffffffff = .next t ∧ t.insts[0]? = some y ∧
      y.err = .illegalCmd) ∧
    ∃ (s t : State) (x y : Instance), s.insts[1]? = some x ∧ s.issue 1 3 = .next t ∧ t.insts[1]? = some y ∧
      y.err = .selftest :=
  ⟨⟨machine (inst 0 0 0 0 0), _, _, _, rfl, rfl, rfl, rfl⟩,
    ⟨State.resetWith { params with selftestOk := false }, _, _, _, rfl, rfl, rfl, rfl⟩⟩

theorem witness_EveryCommandAnswersANextState : State.reset.sel < State.reset.insts.length := by decide

/-- A dead engine whose script is this one action. -/
def dead (a : HostAction) : State :=
  { machine (inst 0 0 0 0 0) with cfg := ⟨false, true, false, false, false, false⟩, script := [a] }

theorem witness_DeadEngineFaultsEveryCommand :
    (dead .hwReset).insts[1]? = some (inst 0 64 0x200 32 0) ∧ (dead .hwReset).cfg.dead = true ∧
      (dead .hwReset).script = [.hwReset] ∧
      (∃ t, (∀ rest, (dead (.wr 0 0 15 3)).script ≠ .hwReset :: rest) ∧ step (dead (.wr 0 0 15 3)) = .next t) ∧
      ((dead (.rd 0 0 14)).script = [.rd 0 0 14] ∧ 14 ≤ 14) ∧
      (dead (.wr 0 0 12 0xfff)).script = [.wr 0 0 12 0xfff] ∧ 12 ≤ 12 ∧
        0xfff < 2 ^ HostAction.width (dead (.wr 0 0 12 0xfff)).params 12 ∧ (inst 0 0 0 0 0).FreeFor 0 :=
  ⟨rfl, rfl, rfl, ⟨_, fun rest h => by simp [dead] at h, rfl⟩, ⟨rfl, by decide⟩, rfl, by decide, by decide, .inl rfl⟩

theorem witness_NothingButDispatchRunsBeforeDispatch :
    Instr.hReset ≠ .dispatch ∧ State.reset.current = some Instance.reset ∧ State.reset.cfg.dead = false ∧
      State.reset.cfg.valid = false := by decide

theorem witness_WidthNotInstalledFaults :
    (∃ (s : State) (x : Instance), s.current = some x ∧ s.Ready ∧ s.cfg.installed 2 = false ∧
      s.cfg.w1 = s.cfg.valid) ∧
    (∃ (s : State) (x : Instance), s.current = some x ∧ s.Ready ∧ s.cfg.installed 8 = false) ∧
    ∃ t y, exec .d64 (machine (inst 0 0 0 0 0)) = .next t ∧ t.current = some y :=
  ⟨⟨machine (inst 0 0 0 0 0), _, rfl, ⟨rfl, rfl⟩, rfl, rfl⟩,
    ⟨{ machine (inst 0 0 0 0 0) with cfg := ⟨true, false, true, true, true, false⟩ }, _, rfl, ⟨rfl, rfl⟩, rfl⟩,
    _, _, rfl, rfl⟩

/-- A command that passes its checks has a next state, with the error code 0. -/
theorem completes {i : Instr} {s : State} {x : Instance} (hx : s.current = some x)
    (h : firstFault (checksOf i s x) = none) :
    ∃ t y, exec i s = .next t ∧ t.current = some y ∧ y.err = .ok :=
  ⟨_, _, exec_completes hx h, current_of_set hx (effectOf_insts i s x) (effectOf_sel i s x), rfl⟩

/-- A command that completes and stores, one that completes and stores nothing, and one that faults. -/
theorem witness_CommandsChangeOnlyWhatTheTableSays :
    (∃ x t y, (machine x).current = some x ∧ exec .d64Way8 (machine x) = .next t ∧ t.current = some y ∧
      y.err = .ok ∧ writesOf .d64Way8 x ≠ []) ∧
    (∃ x t y, (machine x).current = some x ∧ exec .hWrite (machine x) = .next t ∧ t.current = some y ∧
      y.err = .ok ∧ writesOf .hWrite x = []) ∧
    ∃ x t y, (machine x).current = some x ∧ exec .transform (machine x) = .next t ∧ t.current = some y ∧
      y.err ≠ .ok := by
  refine ⟨⟨inst 0 512 0x200 256 0, ?_⟩, ⟨inst 0xfff 1 0 0 0, ?_⟩, inst 0 64 0 0 0, _, _, rfl, rfl, rfl, by decide⟩
  · obtain ⟨t, y, h1, h2, h3⟩ := completes (i := .d64Way8) (machine_current (inst 0 512 0x200 256 0)) (by decide)
    exact ⟨t, y, rfl, h1, h2, h3, by decide⟩
  · obtain ⟨t, y, h1, h2, h3⟩ := completes (i := .hWrite) (machine_current (inst 0xfff 1 0 0 0)) (by decide)
    exact ⟨t, y, rfl, h1, h2, h3, by decide⟩

/-- The same for a source that touches its destination, and for another memory that agrees on the source. -/
theorem witness_OutputIsWhollyWrittenAndNothingElse :
    (∃ x t y, (machine x).current = some x ∧ exec .sha256d64 (machine x) = .next t ∧ t.current = some y ∧
      y.err = .ok ∧ writesOf .sha256d64 x = [⟨0xc0, 96⟩] ∧
      ∀ c ∈ readsOf .sha256d64 x, ∀ a, c.addr ≤ a → a < c.addr + c.len →
        Memory.read [(0xc0, 0xff)] a = (machine x).mem.read a) ∧
    ∃ x t y, (machine x).current = some x ∧ exec .hFinalize (machine x) = .next t ∧ t.current = some y ∧
      y.err ≠ .ok := by
  refine ⟨⟨inst 0 192 0xc0 96 3, ?_⟩, inst 0 0 0 31 0, _, _, rfl, rfl, rfl, by decide⟩
  obtain ⟨t, y, h1, h2, h3⟩ := completes (i := .sha256d64) (machine_current (inst 0 192 0xc0 96 3)) (by decide)
  refine ⟨t, y, rfl, h1, h2, h3, rfl, fun c hc a _ hb => ?_⟩
  simp only [readsOf, List.mem_singleton] at hc
  subst hc
  have : a < 192 := by simpa [inst, Instance.src] using hb
  rw [Memory.read_cons, if_neg (by simp only; omega)]; rfl

theorem witness_DoubleHashesAndDispatchIgnoreTheHasher :
    ∀ i ∈ [Instr.d64, .sha256d64, .dispatch], ∃ t y, (machine (inst 0 64 0x40 32 1)).current =
      some (inst 0 64 0x40 32 1) ∧ exec i (machine (inst 0 64 0x40 32 1)) = .next t ∧ t.current = some y ∧
      y.err = .ok := by
  intro i hi
  obtain ⟨t, y, h1, h2, h3⟩ := completes (i := i) (machine_current (inst 0 64 0x40 32 1)) (by revert i; decide)
  exact ⟨t, y, rfl, h1, h2, h3⟩

/-- Two instances, one reading the block the other reads too, the destinations adjacent. -/
theorem witness_CommandsOnDifferentInstancesCommute :
    ∃ (s t₁ t₂ u₁ u₂ : State) (x y : Instance), s.insts[0]? = some x ∧ s.insts[1]? = some y ∧
      (∀ b ∈ writesOf .d64 x, ∀ c ∈ readsOf .d64 y ++ writesOf .d64 y, Disjoint b c) ∧
      (∀ b ∈ writesOf .d64 y, ∀ c ∈ readsOf .d64 x ++ writesOf .d64 x, Disjoint b c) ∧
      exec .d64 { s with sel := 0 } = .next t₁ ∧ exec .d64 { t₁ with sel := 1 } = .next t₂ ∧
      exec .d64 { s with sel := 1 } = .next u₁ ∧ exec .d64 { u₁ with sel := 0 } = .next u₂ := by
  have pass : ∀ u : State, u.params = params → u.cfg = (machine (inst 0 0 0 0 0)).cfg →
      firstFault (checksOf .d64 u (inst 0 64 0x1e0 32 0)) = none ∧
        firstFault (checksOf .d64 u (inst 0 64 0x200 32 0)) = none := by
    intro u hp hc
    simp only [checksOf, d64Checks, State.readyChecks, State.twoBufferChecks, hp, hc]
    decide
  refine ⟨machine (inst 0 64 0x1e0 32 0), _, _, _, _, _, _, rfl, rfl, ?_, ?_,
    exec_completes (x := inst 0 64 0x1e0 32 0) rfl (pass _ rfl rfl).1,
    exec_completes (x := inst 0 64 0x200 32 0) rfl (pass _ rfl rfl).2,
    exec_completes (x := inst 0 64 0x200 32 0) rfl (pass _ rfl rfl).2,
    exec_completes (x := inst 0 64 0x1e0 32 0) rfl (pass _ rfl rfl).1⟩ <;>
  · intro b hb c hc
    simp only [writesOf, readsOf, List.mem_singleton, List.mem_append] at hb hc
    rcases hc with rfl | rfl <;> subst hb <;> exact disjoint_of_check (by decide)

theorem witness_MemoryReadsAndWritesByteByByte :
    Memory.readBytes [(0xfff, 7)] 0xffe 2 = [0, 7] ∧ Memory.writeBytes [] 0xffe [0, 7] = [(0xfff, 7)] := by decide

/-- The rotation and shift amounts at the ends of their range, and bit 31. -/
theorem witness_WordOperatorsMatchTheirRules :
    (0 < 1 ∧ 1 < 32) ∧ (28 + 3 < 32 ∧ 21 + 10 < 32) ∧ (0 < 31 ∧ 31 < 32) ∧ 32 - 31 ≤ 31 ∧ rotr 31 1 = 2 ∧ rotr 1 1 = 0x80000000 := by decide

theorem witness_ScheduleFollowsTheRecurrence : abc.length = 64 ∧ 15 < 16 ∧ 16 ≤ 16 ∧ 16 ≤ 63 ∧ 63 < 64 := by decide

theorem witness_CompressIsSixtyFourRoundsAndFeedForward : abc.length = 64 := by decide

theorem witness_AdderTreesComputeTheRound :
    add32 (add32 (add32 1 2) 3) (add32 (bigSigma1 4) (ch 4 5 6)) =
      add32 (add32 (add32 1 (bigSigma1 4)) (ch 4 5 6)) (add32 2 3) := by decide

/-- No blocks, and two blocks that end at the top of the space. -/
theorem witness_TransformCompressesItsBlocks :
    ∀ x ∈ [inst 0xfff 0 0 0 0, inst 0xf80 128 0 0 2],
      (machine x).current = some x ∧ (machine x).Ready ∧ x.srcLen = 64 * x.cnt ∧ Admitted (machine x).params x.src := by
  intro x hx
  refine ⟨rfl, machine_ready x, by revert x; decide, admitted_of_checks (by revert x; decide)⟩

theorem witness_TransformIsCumulative :
    (machine (inst 0xf00 0 0 0 0)).Ready ∧ Admitted params ⟨0xf00, 64 * (1 + 3)⟩ ∧ Admitted params ⟨0xf00, 64 * (0 + 4)⟩ :=
  ⟨machine_ready _, admitted_of_checks (by decide), admitted_of_checks (by decide)⟩

/-- Each width with its buffers adjacent, the destination at the top of the space. -/
theorem witness_D64CommandsStoreEachLanesDoubleHash :
    ∀ n ∈ [1, 2, 4, 8],
      ∃ (s : State) (x : Instance), s.current = some x ∧ s.Ready ∧ s.cfg.installed n = true ∧ x.srcLen = 64 * n ∧
        x.dstLen = 32 * n ∧ Admitted s.params x.src ∧ Admitted s.params x.dst ∧ Disjoint x.src x.dst := by
  intro n h
  refine ⟨{ machine (inst (4096 - 96 * n) (64 * n) (4096 - 32 * n) (32 * n) 0) with
    cfg := ⟨true, false, true, true, true, true⟩ }, _, rfl, ⟨rfl, rfl⟩, ?_, rfl, rfl, admitted_of_checks ?_,
    admitted_of_checks ?_, disjoint_of_check ?_⟩ <;> revert n <;> decide

theorem witness_D64fnIsThreeCompressions : (List.replicate 64 (0xff : Byte)).length = 64 := by decide

theorem witness_DigestsStandInTheOrderOfTheBlocks :
    ∀ i ∈ [Instr.d64Way4, .sha256d64], ∃ x t y, (machine x).current = some x ∧
      (i, 4) ∈ [(Instr.d64, 1), (.d64Way2, 2), (.d64Way4, 4), (.d64Way8, 8), (.sha256d64, x.cnt)] ∧
      exec i (machine x) = .next t ∧ t.current = some y ∧ y.err = .ok ∧ 3 < 4 := by
  intro i hi
  obtain ⟨t, y, h1, h2, h3⟩ := completes (i := i) (machine_current (inst 0 256 0x100 128 4)) (by revert i; decide)
  refine ⟨inst 0 256 0x100 128 4, t, y, rfl, ?_, h1, h2, h3, by decide⟩
  clear h1
  revert i; decide

/-- No block, and seven blocks with widths 8, 4 and 1 installed. -/
theorem witness_BatchEqualsScalarDoubleHashes :
    ∀ x ∈ [inst 0 0 0 0 0, inst 0 448 0x1c0 224 7],
      (machine x).current = some x ∧ (machine x).Ready ∧ x.srcLen = 64 * x.cnt ∧ x.dstLen = 32 * x.cnt ∧
        Admitted (machine x).params x.src ∧ Admitted (machine x).params x.dst ∧ Disjoint x.src x.dst := by
  intro x hx
  refine ⟨rfl, machine_ready x, ?_, ?_, admitted_of_checks ?_, admitted_of_checks ?_, disjoint_of_check ?_⟩ <;>
    revert x <;> decide

theorem witness_PlanIsGreedy : (⟨true, false, true, true, true, true⟩ : Cfg).w8 = true := rfl

theorem witness_FirstDispatchPublishesTheTable :
    (State.resetWith params).current = some Instance.reset ∧ (State.resetWith params).cfg.dead = false ∧
      (State.resetWith params).cfg.valid = false ∧ (State.resetWith params).params.selftestOk = true :=
  ⟨rfl, rfl, rfl, rfl⟩

theorem witness_RepeatedDispatchIsANoOp :
    ((machine (inst 0 0 0 0 0)).cfg.dead = false ∧ (machine (inst 0 0 0 0 0)).cfg.valid = true) ∧
      (dead .hwReset).cfg.dead = true ∧ (dead .hwReset).current = some (inst 0 0 0 0 0) := by decide

theorem witness_FailedSelfTestKillsTheEngine :
    ∃ (s : State) (x : Instance), s.current = some x ∧ s.cfg.dead = false ∧ s.cfg.valid = false ∧
      s.abt = BackendTable.empty ∧ s.params.selftestOk = false :=
  ⟨State.resetWith { params with selftestOk := false }, _, rfl, rfl, rfl, rfl, rfl⟩

/-- A filled slot and an empty one. -/
theorem witness_SelectionTakesTheFastestSatisfiedCandidate :
    params.Wf ∧ tableSlot (selectTable params) .core = some "fast" ∧ tableSlot (selectTable params) .d64x2 = none :=
  ⟨params_wf, by decide, by decide⟩

/-- Backends whose core is wrong on nine blocks, which the Self-Test does not try (R206). -/
def wrongOnNine : Backends where
  core := fun s data n => if n = 9 then ⟨0, 0, 0, 0, 0, 0, 0, 0⟩ else compressBlocks n s data
  d64 := laneGroup

/-- A core that is wrong on no block at all, a scalar and a filled 4-way D64 that answer nothing, and a core that is wrong
on nine blocks only. -/
theorem witness_KnownAnswerTestDetectsWrongAnswersOnTestedInputs :
    Params.defaultText.length = 640 ∧
      (Backends.mk (fun _ _ _ => ⟨0, 0, 0, 0, 0, 0, 0, 0⟩) laneGroup).core Rom.IV Params.defaultText 0 ≠
        compressBlocks 0 Rom.IV Params.defaultText ∧
      (Backends.mk Backends.faithful.core fun _ _ => []).d64 1 (Params.defaultText.take 64) ≠
        d64fn (Params.defaultText.take 64) ∧
      ((4, Slot.d64x4) ∈ [(2, Slot.d64x2), (4, .d64x4), (8, .d64x8)] ∧
        tableSlot ⟨some "a", some "a", none, some "a", none⟩ .d64x4 ≠ none ∧
        (Backends.mk Backends.faithful.core fun _ _ => []).d64 4 (List.replicate 4 (Params.defaultText.take 64)).flatten ≠
          (List.replicate 4 (d64fn (Params.defaultText.take 64))).flatten) ∧
      (∀ i, i ≤ 8 → wrongOnNine.core Rom.IV Params.defaultText i = Backends.faithful.core Rom.IV Params.defaultText i) ∧
      wrongOnNine.d64 = Backends.faithful.d64 := by
  refine ⟨by simp [Params.defaultText], by decide, fun h => ?_, ⟨by decide, by decide, fun h => ?_⟩, fun i hi => ?_, rfl⟩
  · have := congrArg List.length h
    simp at this
  · have := congrArg List.length h
    simp [List.replicate] at this
  · simp [wrongOnNine, Backends.faithful, show i ≠ 9 by omega]

theorem witness_HResetReturnsToFresh :
    (machine { inst 0 0 0 0 0 with hst := .finalized }).current = some { inst 0 0 0 0 0 with hst := .finalized } ∧
      (machine { inst 0 0 0 0 0 with hst := .finalized }).cfg.dead = false ∧
      (machine { inst 0 0 0 0 0 with hst := .finalized }).cfg.valid = true ∧ (dead .hwReset).cfg.dead = true ∧
      State.reset.cfg.dead = false ∧ State.reset.cfg.valid = false := by decide

/-- The last byte the counter admits, at the top of the space. -/
theorem witness_HWriteAbsorbsItsBytes :
    ∃ (s : State) (x : Instance), s.current = some x ∧ s.Ready ∧ x.hst ≠ .finalized ∧ Admitted s.params x.src ∧
      x.total.toNat + x.srcLen < 2 ^ 61 ∧ x.total.toNat + x.srcLen + 1 = 2 ^ 61 :=
  ⟨machine { inst 0xfff 1 0 0 0 with total := 0x1ffffffffffffffe, bufLen := 62, hst := .accumulating }, _, rfl,
    ⟨rfl, rfl⟩, by decide, admitted_of_checks (by decide), by decide, by decide⟩

theorem witness_HFinalizeStoresTheDigest :
    ∃ (s : State) (x : Instance), s.current = some x ∧ s.Ready ∧ x.hst ≠ .finalized ∧ x.dstLen = 32 ∧
      Admitted s.params x.dst ∧ x.bufLen = 56 :=
  ⟨machine { inst 0 0 0xfe0 32 0 with total := 56, bufLen := 56, hst := .accumulating }, _, rfl, ⟨rfl, rfl⟩, by decide,
    rfl, admitted_of_checks (by decide), rfl⟩

theorem witness_HasherStateFollowsItsTable :
    (∃ t y, exec .hWrite (machine (inst 0 0 0 0 0)) = .next t ∧ t.current = some y ∧ y.err = .ok) ∧
      (∃ (s : State) (x : Instance), s.current = some x ∧ s.Ready ∧ x.hst = .finalized) ∧
      (∃ s t : State, s.script = [.wr 0 0 0 5] ∧ 0 ≠ 15 ∧ step s = .next t) ∧
      (machine (inst 0 0 0 0 0)).current = some (inst 0 0 0 0 0) :=
  ⟨completes (machine_current (inst 0 0 0 0 0)) (by decide),
    ⟨machine { inst 0 0 0 0 0 with hst := .finalized }, _, rfl, ⟨rfl, rfl⟩, rfl⟩,
    ⟨{ machine (inst 0 0 0 0 0) with script := [.wr 0 0 0 5] }, _, rfl, by decide, rfl⟩, rfl⟩

/-- The longest message, whose last block is one byte short of full, and both sides of the boundary at 55. -/
theorem witness_PaddingCompletesTheBlocks :
    2 ^ 61 - 1 < 2 ^ 61 ∧ (55 : Nat) % 64 ≤ 55 ∧ 56 ≤ (56 : Nat) % 64 := by decide

theorem witness_WritesAreSplitInvariant :
    ∃ (s : State) (x : Instance), s.current = some x ∧ s.Ready ∧ x.hst ≠ .finalized ∧
      x.bufLen.val = x.total.toNat % 64 ∧ Admitted s.params ⟨x.srcAddr, 4 + 66⟩ ∧ x.total.toNat + (4 + 66) < 2 ^ 61 :=
  ⟨machine { inst 0x40 0 0 0 0 with total := 60, bufLen := 60, hst := .accumulating }, _, rfl, ⟨rfl, rfl⟩, by decide,
    rfl, admitted_of_checks (by decide), by decide⟩

/-- Three writes, the middle one empty, the first buffer filled again for the third. -/
theorem witness_HasherComputesSha256OfAllWrites :
    ∃ (s : State) (x : Instance) (ws : List HashWrite), ws.length = 3 ∧ s.current = some x ∧ s.Ready ∧ x.h = Rom.IV ∧
      x.bufLen = 0 ∧ x.total = 0 ∧ x.hst = .fresh ∧ (∀ w ∈ ws, Admitted s.params w.buf) ∧
      (ws.flatMap HashWrite.bytes).length < 2 ^ 61 ∧ x.dstLen = 32 ∧ Admitted s.params x.dst := by
  refine ⟨machine (inst 0 0 0xfe0 32 0), _, [⟨[(0, 1)], 0, 3⟩, ⟨[], 5, 0⟩, ⟨[(0, 2), (1, 3)], 0, 64⟩], rfl, rfl, ⟨rfl, rfl⟩, rfl, rfl, rfl, rfl,
    fun b hb => admitted_of_checks (by revert b; decide), ?_, rfl, admitted_of_checks (by decide)⟩
  simp [List.flatMap_cons, HashWrite.bytes]

theorem witness_HasherAgreesWithTransformAndD64 :
    (∃ (s : State) (x : Instance), s.current = some x ∧ s.Ready ∧ x.hst ≠ .finalized ∧ x.bufLen = 0 ∧
      x.srcLen = 64 * x.cnt ∧ Admitted s.params x.src ∧ x.total.toNat + x.srcLen < 2 ^ 61 ∧ x.cnt = 2) ∧
    abc.length = 64 :=
  ⟨⟨machine { inst 0 128 0 0 2 with total := 64, hst := .accumulating }, _, rfl, ⟨rfl, rfl⟩, by decide, rfl, rfl,
    admitted_of_checks (by decide), by decide, rfl⟩, by decide⟩

/-- Both sides of the boundary at `2^61`. -/
theorem witness_TooLongMessageIsRefusedExactly :
    ∀ x ∈ [{ inst 0 1 0x100 32 0 with total := 0x1fffffffffffffff, bufLen := 63, hst := .accumulating },
        { inst 0 1 0x100 32 0 with total := 0x1ffffffffffffffe, bufLen := 62, hst := .accumulating }],
      (machine x).current = some x ∧ (machine x).Ready ∧ x.hst ≠ .finalized ∧ Admitted (machine x).params x.src ∧
        2 ^ 61 ≤ x.total.toNat + x.srcLen + 1 ∧ x.dstLen = 32 ∧ Admitted (machine x).params x.dst := by
  intro x hx
  refine ⟨rfl, machine_ready x, ?_, admitted_of_checks ?_, ?_, ?_, admitted_of_checks ?_⟩ <;> revert x <;> decide

end Sys2Proof.Tests
end

section
/-! PROOF. The statements of the scope family: a step and the host's actions (spec 00_scope.md R16, R17, 20_memory.md
R60) and the byte order (R8). -/

namespace Sys2Proof.Machine

/-! ### A command write -/

/-- A step at a write of `CMD` issues the word, with the writing agent's sequence ended (R70, R90). -/
theorem step_wr_cmd {s : State} {agent k v : Nat} {rest : List HostAction} {x : Instance}
    (hs : s.script = .wr agent k 15 v :: rest) (hx : s.insts[k]? = some x) (hw : x.FreeFor agent) (hv : v < 2 ^ 32) :
    step s = State.issue { s with script := rest, insts := s.insts.set k { x with writer := none } } k
      (BitVec.ofNat 32 v) := by
  rw [step_of_script_cons hs, act_wr (s := { s with script := rest }) hx hw, writeReg_cmd hv]

/-- For a word that decodes, that step performs the decoded command on the instance written to. -/
theorem step_wr_cmd_of_decode {s : State} {agent k v : Nat} {rest : List HostAction} {x : Instance} {i : Instr}
    (hs : s.script = .wr agent k 15 v :: rest) (hx : s.insts[k]? = some x) (hw : x.FreeFor agent) (hv : v < 2 ^ 32)
    (hi : decode (BitVec.ofNat 32 v) = .ok i) :
    step s = exec i { s with script := rest, sel := k, insts := s.insts.set k { x with writer := none } } := by
  rw [step_wr_cmd hs hx hw hv, issue_of_decode hi]

/-- The agent in the middle of its writes on an instance, or any agent where there is none, may write it (R72). -/
theorem freeFor_writer_getD (x : Instance) (agent : Nat) : x.FreeFor (x.writer.getD agent) := by
  cases hw : x.writer with
  | none => exact .inl hw
  | some other => exact .inr hw

/-- `withFetchWord` puts a `CMD` write on instance 0 first, made by the agent that is writing there (log 6). -/
theorem withFetchWord_script {s : State} {nbits w : Nat} {x : Instance} (hx : s.insts[0]? = some x)
    (hw : w < 2 ^ nbits) : (s.withFetchWord nbits w).script = .wr (x.writer.getD 0) 0 15 w :: s.script := by
  simp [State.withFetchWord, hx, Nat.mod_eq_of_lt hw]

/-! ### The host's data-space accesses -/

/-- A host store of bytes of the space stores them and changes nothing else (R16, R98). -/
theorem step_mem {s : State} {addr : Nat} {bytes : List Byte} {rest : List HostAction}
    (hs : s.script = .mem addr bytes :: rest) (hb : bufferExists s.params ⟨addr, bytes.length⟩ = true) :
    step s = .next { s with script := rest, mem := s.mem.writeBytes addr bytes } := by
  rw [step_of_script_cons hs]
  simp only [State.act, hb, if_true]

/-- A host read of bytes of the space hands them to the host and changes nothing else (R16, R98). -/
theorem step_get {s : State} {addr len : Nat} {rest : List HostAction}
    (hs : s.script = .get addr len :: rest) (hb : bufferExists s.params ⟨addr, len⟩ = true) :
    step s = .next { s with script := rest, received := .bytes addr (s.mem.readBytes addr len) :: s.received } := by
  rw [step_of_script_cons hs]
  simp only [State.act, hb, if_true]

/-- A host store that touches an address past the top of the space stops (log 13). -/
theorem step_mem_of_not_exists {s : State} {addr : Nat} {bytes : List Byte} {rest : List HostAction}
    (hs : s.script = .mem addr bytes :: rest) (hb : bufferExists s.params ⟨addr, bytes.length⟩ = false) :
    step s = .fault .noSuchAddress := by
  rw [step_of_script_cons hs]
  simp [State.act, hb]

/-- A host read that touches an address past the top of the space stops (log 13). -/
theorem step_get_of_not_exists {s : State} {addr len : Nat} {rest : List HostAction}
    (hs : s.script = .get addr len :: rest) (hb : bufferExists s.params ⟨addr, len⟩ = false) :
    step s = .fault .noSuchAddress := by
  rw [step_of_script_cons hs]
  simp [State.act, hb]

/-- The bytes of a buffer, each by its address (R61). -/
theorem Memory.readBytes_eq_map_range (m : Memory) (addr n : Nat) :
    m.readBytes addr n = (List.range n).map fun i => m.read (addr + i) := by
  apply List.ext_getElem (by simp)
  intro i h1 h2
  rw [Memory.readBytes_getElem, List.getElem_map, List.getElem_range]

/-! ### Byte order -/

/-- Bits in front of an `n`-bit number count `2 ^ n` times. -/
theorem append_toNat {m n : Nat} (x : BitVec m) (y : BitVec n) :
    (x ++ y).toNat = x.toNat * 2 ^ n + y.toNat := by
  rw [BitVec.toNat_append, ← Nat.shiftLeft_add_eq_or_of_lt y.isLt, Nat.shiftLeft_eq]

theorem be32_toNat (b₀ b₁ b₂ b₃ : Byte) :
    (be32 b₀ b₁ b₂ b₃).toNat = b₀.toNat * 2 ^ 24 + b₁.toNat * 2 ^ 16 + b₂.toNat * 2 ^ 8 + b₃.toNat := by
  simp only [be32, append_toNat]
  omega

theorem enc32_map_toNat (w : Word) : (enc32 w).map (·.toNat) =
    [w.toNat / 2 ^ 24, w.toNat / 2 ^ 16 % 256, w.toNat / 2 ^ 8 % 256, w.toNat % 256] := by
  have top : w.toNat / 2 ^ 24 % 2 ^ 8 = w.toNat / 2 ^ 24 := Nat.mod_eq_of_lt (by have := w.isLt; omega)
  simp only [enc32, List.map_cons, List.map_nil, BitVec.extractLsb'_toNat, Nat.shiftRight_eq_div_pow, top]
  simp

/-- The bytes of `enc64` are the digits to base 256, the most significant first. -/
theorem enc64_foldl_toNat (n : BitVec 64) : (enc64 n).foldl (fun acc b => acc * 256 + b.toNat) 0 = n.toNat := by
  have := n.isLt
  simp only [enc64, List.foldl_cons, List.foldl_nil, BitVec.extractLsb'_toNat, Nat.shiftRight_eq_div_pow]
  omega

/-! ### The statements -/

/-- Settles O5: the step issues the written word, and an issued word that decodes is performed. -/
theorem stepRunsTheDecodedCommand : Obligations.StepRunsTheDecodedCommand := by
  refine ⟨fun s agent k v rest x hs hx hw hv => step_wr_cmd hs hx hw hv,
    fun s agent k v rest x i hs hx hw hv hi => step_wr_cmd_of_decode hs hx hw hv hi, fun s w x i hx hw hi => ?_⟩
  exact step_wr_cmd_of_decode (s := s.withFetchWord 32 w) (withFetchWord_script hx hw) hx (freeFor_writer_getD x 0) hw hi

/-- Settles O6: with no action left the step answers the state itself. -/
theorem engineWaitsWithoutAHostAction : Obligations.EngineWaitsWithoutAHostAction :=
  fun _ hs => step_of_script_nil hs

/-- Settles O12: an access is made exactly when `bufferExists`, and the memory laws say what it stores and reads. -/
theorem hostReachesOnlyExistingBytes : Obligations.HostReachesOnlyExistingBytes := by
  refine ⟨fun s addr bs rest hs => ⟨fun hin => ?_, fun hout => ?_⟩,
    fun s addr len rest hs => ⟨fun hin => ?_, fun hout => ?_⟩⟩
  · exact ⟨_, step_mem hs ((bufferExists_iff _ _).mpr hin), rfl, fun _ h => Memory.read_writeBytes_inside h,
      fun _ h => Memory.read_writeBytes_outside h⟩
  · exact step_mem_of_not_exists hs ((bufferExists_eq_false_iff _ _).mpr hout)
  · rw [← Memory.readBytes_eq_map_range]
    exact step_get hs ((bufferExists_iff _ _).mpr hin)
  · exact step_get_of_not_exists hs ((bufferExists_eq_false_iff _ _).mpr hout)

/-- Settles O29: the arithmetic of each conversion, and `words` undoing `enc32`. -/
theorem byteOrderIsBigEndian : Obligations.ByteOrderIsBigEndian :=
  ⟨be32_toNat, enc32_map_toNat, fun n => ⟨enc64_length n, enc64_foldl_toNat n⟩,
    fun ws => ⟨words_encWords ws, encWords_length ws⟩⟩

end Sys2Proof.Machine
end

section
/-! PROOF. The statements of the state family: the invariant, reset, the host's register accesses, the frame of every
command, and the words of `STATUS` and `CFG` (spec 10_state.md R20, R30 to R36, R40, R43; 20_memory.md R60, R63). -/

namespace Sys2Proof.Machine

/-! ### Legal registers (R30, R31) -/

section Ok
variable {p : Params} {x : Instance}

/-- `Ok` does not look at the error code. -/
theorem Instance.Ok.withErr (h : x.Ok p) (e : ErrCode) : Instance.Ok p { x with err := e } := { h with }

/-- `Ok` does not look at the record of the writing agent. -/
theorem Instance.Ok.withWriter (h : x.Ok p) (w : Option Nat) : Instance.Ok p { x with writer := w } := { h with }

/-- A fresh instance is legal: every register that `Ok` bounds is 0. -/
theorem Instance.reset_ok (p : Params) : Instance.reset.Ok p := by
  constructor <;> simp [Instance.reset]

/-- Appending fewer bytes than would bring `TOTAL` to `2^61` keeps R30. -/
theorem Instance.Ok.absorb (h : x.Ok p) {data : List Byte} (hlen : x.total.toNat + data.length < 2 ^ 61) :
    (x.absorb data).Ok p := by
  have htotal : (x.absorb data).total.toNat = x.total.toNat + data.length :=
    (BitVec.toNat_ofNat ..).trans (Nat.mod_eq_of_lt (by omega))
  have hbuf : (x.absorb data).bufLen.val = (x.bufLen.val + data.length) % 64 := by
    simp [Instance.absorb, buffered_length]
  have hmod := h.bufLen_eq
  exact { h with
    bufLen_eq := by rw [hbuf, htotal]; omega
    total_lt := by rw [htotal]; exact hlen
    fresh_total := nofun }

/-- The registers a command that passes its checks leaves are legal. -/
theorem instOf_ok {i : Instr} {s : State} (h : x.Ok p) (hc : firstFault (checksOf i s x) = none) :
    (instOf i s x).Ok p := by
  cases i with
  | hWrite =>
    have hlong := checksOf_none hc .tooLong
    simp only [CheckFails, true_and, Nat.not_le] at hlong
    exact h.absorb (by rwa [Memory.readBytes_length])
  | hReset =>
    have hzero : (0 : BitVec 64).toNat < 2 ^ 61 := by decide
    exact { h with bufLen_eq := rfl, total_lt := hzero, fresh_total := fun _ => rfl }
  | hFinalize => exact { h with fresh_total := nofun }
  | transform => exact { h with }
  | d64 | d64Way2 | d64Way4 | d64Way8 | dispatch | sha256d64 => exact h

/-- A host write of a value that fits its register keeps the registers legal (R31, R36). -/
theorem writeHostReg_ok {y : Instance} {v : Nat} {r : HostReg} (h : x.Ok p) (hy : writeHostReg x v r = some y)
    (hv : v < 2 ^ hostRegWidth p r) : y.Ok p := by
  cases r with
  | h j => cases hy; exact { h with }
  | srcAddr => cases hy; exact { h with srcAddr_lt := hv }
  | srcLen => cases hy; exact { h with srcLen_lt := hv }
  | dstAddr => cases hy; exact { h with dstAddr_lt := hv }
  | dstLen => cases hy; exact { h with dstLen_lt := hv }
  | cnt => cases hy; exact { h with cnt_lt := hv }
  | status | cfg | cmd => cases hy

end Ok

/-! ### The table and `CFG` (R33, R34) -/

theorem CfgMatches.reset : CfgMatches Cfg.reset BackendTable.empty := by
  constructor <;> simp [Cfg.reset, BackendTable.empty]

/-- What DISPATCH publishes: the mandatory slots are filled for well-formed parameters (R201, R202). -/
theorem publishedCfg_matches {p : Params} (hp : p.Wf) :
    CfgMatches (publishedCfg (selectTable p)) (selectTable p) where
  not_both := nofun
  w1_eq := rfl
  w2_eq := rfl
  w4_eq := rfl
  w8_eq := rfl
  published _ := selectTable_mandatory hp
  unpublished := nofun

/-- `DEAD` may be set where nothing is published. -/
theorem CfgMatches.setDead {c : Cfg} {t : BackendTable} (h : CfgMatches c t) (hv : c.valid = false) :
    CfgMatches { c with dead := true } t :=
  { h with not_both := fun hboth => Bool.false_ne_true (hv.symm.trans hboth.1) }

/-- A fault keeps the table and `CFG` in agreement: only DISPATCH before publication sets `DEAD` (R254, R265). -/
theorem raise_cfgMatches {s : State} {x : Instance} {e : ErrCode} (h : CfgMatches s.cfg s.abt)
    (he : e = .selftest → s.cfg.valid = false) : CfgMatches (s.raise x e).cfg (s.raise x e).abt := by
  rw [State.raise_cfg, State.raise_abt]
  split
  · next hself => exact h.setDead (he hself)
  · exact h

/-- A command that completes keeps the table and `CFG` in agreement; only the first DISPATCH changes them (R202). -/
theorem effectOf_cfgMatches {i : Instr} {s : State} {x : Instance} (h : CfgMatches s.cfg s.abt) (hp : s.params.Wf) :
    CfgMatches (effectOf i s x).cfg (effectOf i s x).abt := by
  by_cases hi : i = .dispatch
  · subst hi
    rw [effectOf]
    cases hv : s.cfg.valid with
    | true => rw [dispatchEffect_of_valid x hv]; exact h
    | false => rw [dispatchEffect_of_not_valid x hv]; exact publishedCfg_matches hp
  · rw [effectOf_cfg_of_ne s x hi, effectOf_abt_of_ne s x hi]
    exact h

/-! ### The addresses memory lists (R60) -/

/-- Writing bytes of the space lists no address past its top. -/
theorem Memory.inside_writeBytes {m : Memory} {top addr : Nat} {bytes : List Byte} (hm : ∀ c ∈ m, c.1 < top)
    (hin : ∀ a, addr ≤ a → a < addr + bytes.length → a < top) : ∀ c ∈ m.writeBytes addr bytes, c.1 < top := by
  intro c hc
  rcases Memory.mem_writeBytes hc with hold | ⟨hlo, hhi⟩
  · exact hm c hold
  · exact hin c.1 hlo hhi

/-- The one buffer a command may write is its destination (R63). -/
theorem writesOf_eq_nil_or_dst (i : Instr) (x : Instance) : writesOf i x = [] ∨ writesOf i x = [x.dst] := by
  cases i <;> simp [writesOf]

/-- A command that passes its checks stores inside the space. -/
theorem output_inside {i : Instr} {s : State} {x : Instance} (hc : firstFault (checksOf i s x) = none) (a : Nat)
    (hlo : x.dstAddr ≤ a) (hhi : a < x.dstAddr + (outputOf i s x).length) : a < 2 ^ s.params.aw := by
  obtain ⟨hnone, hsome⟩ := output_fills_destination hc
  rcases writesOf_eq_nil_or_dst i x with hw | hw
  · rw [hnone hw, List.length_nil] at hhi
    omega
  · have hdst : x.dst ∈ writesOf i x := by simp [hw]
    have htop := (admitted_of_pass hc (List.mem_append_right _ hdst)).inside
    rw [(hsome _ hdst).1, (hsome _ hdst).2] at htop
    omega

/-! ### The invariant -/

/-- The invariant does not look at the host's remaining actions. -/
theorem State.Inv.withScript {s : State} (h : s.Inv) (script : List HostAction) :
    State.Inv { s with script := script } := { h with }

/-- The invariant does not look at what the host has received. -/
theorem State.Inv.withReceived {s : State} (h : s.Inv) (received : List Receipt) :
    State.Inv { s with received := received } := { h with }

/-- The invariant holds whichever existing instance a command is issued on. -/
theorem State.Inv.withSel {s : State} (h : s.Inv) {k : Nat} (hk : k < s.insts.length) :
    State.Inv { s with sel := k } := { h with sel_lt := h.insts_len ▸ hk }

/-- Replacing the registers of one instance by legal ones keeps the invariant. -/
theorem State.Inv.setInst {s : State} (h : s.Inv) (k : Nat) {y : Instance} (hy : y.Ok s.params) :
    State.Inv { s with insts := s.insts.set k y } :=
  { h with
    insts_len := by rw [List.length_set]; exact h.insts_len
    insts_ok := fun z hz => (List.mem_or_eq_of_mem_set hz).elim (h.insts_ok z) (fun hzy => hzy ▸ hy) }

/-- Storing bytes at addresses of the space keeps the invariant. -/
theorem State.Inv.writeMem {s : State} (h : s.Inv) {addr : Nat} {bytes : List Byte}
    (hin : ∀ a, addr ≤ a → a < addr + bytes.length → a < 2 ^ s.params.aw) :
    State.Inv { s with mem := s.mem.writeBytes addr bytes } :=
  { h with
    mem_wf := Memory.wf_writeBytes h.mem_wf addr bytes
    mem_inside := Memory.inside_writeBytes h.mem_inside hin }

/-- Another table and `CFG` that agree keep the invariant. -/
theorem State.Inv.withCfg {s : State} (h : s.Inv) {c : Cfg} {t : BackendTable} (hc : CfgMatches c t) :
    State.Inv { s with cfg := c, abt := t } := { h with cfg_ok := hc }

theorem State.Inv.current_ok {s : State} {x : Instance} (h : s.Inv) (hx : s.current = some x) : x.Ok s.params :=
  h.insts_ok x (State.current_mem hx)

theorem State.Inv.inst_ok {s : State} {k : Nat} {x : Instance} (h : s.Inv) (hx : s.insts[k]? = some x) :
    x.Ok s.params := h.insts_ok x (List.mem_of_getElem? hx)

/-- Taking a fault keeps the invariant. -/
theorem raise_inv {s : State} {x : Instance} {e : ErrCode} (h : s.Inv) (hx : x.Ok s.params)
    (he : e = .selftest → s.cfg.valid = false) : (s.raise x e).Inv := by
  have hraise : s.raise x e = { s with
      insts := s.insts.set s.sel { x with err := e }, cfg := (s.raise x e).cfg, abt := (s.raise x e).abt } := by
    unfold State.raise; split <;> rfl
  rw [hraise]
  exact (h.setInst s.sel (hx.withErr e)).withCfg (raise_cfgMatches h.cfg_ok he)

/-- The effect of a command that passes its checks keeps the invariant. -/
theorem effectOf_inv {i : Instr} {s : State} {x : Instance} (h : s.Inv) (hx : x.Ok s.params)
    (hc : firstFault (checksOf i s x) = none) : (effectOf i s x).Inv where
  params_wf := by simpa using h.params_wf
  insts_len := by simpa using h.insts_len
  sel_lt := by simpa using h.sel_lt
  insts_ok := by
    simpa using (h.setInst s.sel ((instOf_ok hx hc).withErr .ok)).insts_ok
  cfg_ok := effectOf_cfgMatches h.cfg_ok h.params_wf
  mem_wf := by simpa only [effectOf_mem] using Memory.wf_writeBytes h.mem_wf x.dstAddr (outputOf i s x)
  mem_inside := by
    simpa only [effectOf_mem, effectOf_params] using Memory.inside_writeBytes h.mem_inside (output_inside hc)

/-- Every command keeps the invariant, whether it faults or completes. -/
theorem exec_inv {i : Instr} {s t : State} (h : s.Inv) (ht : exec i s = .next t) : t.Inv := by
  obtain ⟨x, hx, ⟨e, hc, rfl⟩ | ⟨hc, rfl⟩⟩ := exec_next_cases ht
  · refine raise_inv h (h.current_ok hx) fun hself => ?_
    subst hself
    obtain ⟨⟨_, hvalid, _⟩, _⟩ := checksOf_some hc
    exact hvalid
  · exact effectOf_inv h (h.current_ok hx) hc

/-- Issuing any word keeps the invariant. -/
theorem issue_inv {s t : State} {k : Nat} {c : Word} (h : s.Inv) (hk : k < s.insts.length)
    (ht : s.issue k c = .next t) : t.Inv := by
  rcases issue_next_cases ht with ⟨i, _, hi⟩ | ⟨_, x, _, hx, rfl⟩
  · exact exec_inv (h.withSel hk) hi
  · exact raise_inv (h.withSel hk) (h.inst_ok hx) nofun

/-- The reset state of any well-formed parameters meets the invariant (R40). -/
theorem resetWith_inv {p : Params} (hp : p.Wf) : (State.resetWith p).Inv where
  params_wf := hp
  insts_len := List.length_replicate
  sel_lt := hp.ninst_pos
  insts_ok _ hx := (List.eq_of_mem_replicate hx).symm ▸ Instance.reset_ok p
  cfg_ok := CfgMatches.reset
  mem_wf := ⟨List.Pairwise.nil, nofun⟩
  mem_inside := nofun

/-- Hardware reset leaves the invariant, whatever the registers held: the engine's own state is that of `resetWith`, and
the data space stays. -/
theorem hwReset_inv {s : State} (h : s.Inv) : s.hwReset.Inv :=
  { resetWith_inv h.params_wf with mem_wf := h.mem_wf, mem_inside := h.mem_inside }

/-- Every host action keeps the invariant. -/
theorem act_inv {s t : State} {a : HostAction} (h : s.Inv) (ht : s.act a = .next t) : t.Inv := by
  rcases act_next_cases ht with ⟨_, k, _, x, _, hx, _, _, hissue⟩ |
    ⟨agent, k, _, _, x, _, y, _, hx, _, _, _, hy, hv, rfl⟩ | ⟨_, _, _, _, _, _, _, _, rfl⟩ |
    ⟨addr, bytes, _, hb, rfl⟩ | ⟨_, _, _, _, rfl⟩ | ⟨_, rfl⟩
  · refine issue_inv (h.setInst k ((h.inst_ok hx).withWriter none)) ?_ hissue
    simpa using (List.getElem?_eq_some_iff.mp hx).1
  · exact h.setInst k ((writeHostReg_ok (h.inst_ok hx) hy hv).withWriter (some agent))
  · exact h.withReceived _
  · exact h.writeMem ((bufferExists_iff _ _).mp hb)
  · exact h.withReceived _
  · exact hwReset_inv h

/-- Settles O15: every host action keeps the invariant, which does not look at the script. -/
theorem everyStepKeepsTheInvariant : Obligations.EveryStepKeepsTheInvariant := by
  intro s t h ht
  cases hs : s.script with
  | nil => rw [step_of_script_nil hs] at ht; cases ht; exact h
  | cons a rest => rw [step_of_script_cons hs] at ht; exact act_inv (h.withScript rest) ht

/-! ### Reset (R40) -/

theorem default_params_wf : Params.default.Wf where
  aw_pos := by decide
  ninst_pos := by decide
  text_len := by simp [Params.default, Params.defaultText]
  core_candidate := by simp [Params.default]
  d64x1_candidate := by simp [Params.default]

/-- Settles O14: the reset state of any well-formed parameters, of which the defaults are one choice. -/
theorem resetStateMeetsTheInvariant : Obligations.ResetStateMeetsTheInvariant :=
  ⟨resetWith_inv default_params_wf, fun _ hp => resetWith_inv hp⟩

/-- A step at a hardware reset answers the state `hwReset` leaves. -/
theorem step_hwReset {s : State} {rest : List HostAction} (hs : s.script = .hwReset :: rest) :
    step s = .next (State.hwReset { s with script := rest }) := step_of_script_cons hs

/-- Settles O13: `resetWith` and `hwReset` put the same values in the engine's own state. -/
theorem resetLeavesTheValuesOfTheTable : Obligations.ResetLeavesTheValuesOfTheTable := by
  intro p s hs
  obtain ⟨hparams, hinsts, hcfg, habt⟩ : s.params = p ∧ s.insts = List.replicate p.ninst Instance.reset ∧
      s.cfg = Cfg.reset ∧ s.abt = BackendTable.empty := by
    rcases hs with rfl | ⟨r, rest, rfl, hscript, hstep⟩
    · exact ⟨rfl, rfl, rfl, rfl⟩
    · rw [step_hwReset hscript] at hstep
      cases hstep
      exact ⟨rfl, rfl, rfl, rfl⟩
  refine ⟨hparams, by rw [hinsts, List.length_replicate], by rw [hcfg]; rfl, habt, fun x hx => ?_⟩
  obtain rfl : x = Instance.reset := List.eq_of_mem_replicate (hinsts ▸ hx)
  exact ⟨rfl, rfl, rfl, rfl, rfl, rfl, rfl, rfl, rfl, rfl⟩

/-! ### What a step keeps (R43) -/

/-- The parts of the state that no command, no fault and no register access changes. -/
structure State.SameFrame (s t : State) : Prop where
  script_eq : t.script = s.script
  params_eq : t.params = s.params
  length_eq : t.insts.length = s.insts.length

theorem raise_sameFrame (s : State) (x : Instance) (e : ErrCode) : s.SameFrame (s.raise x e) :=
  ⟨s.raise_script x e, s.raise_params x e, by simp⟩

theorem exec_sameFrame {i : Instr} {s t : State} (ht : exec i s = .next t) : s.SameFrame t := by
  obtain ⟨x, _, ⟨e, _, rfl⟩ | ⟨_, rfl⟩⟩ := exec_next_cases ht
  · exact raise_sameFrame s x e
  · exact ⟨effectOf_script i s x, effectOf_params i s x, by simp⟩

theorem issue_sameFrame {s t : State} {k : Nat} {c : Word} (ht : s.issue k c = .next t) : s.SameFrame t := by
  rcases issue_next_cases ht with ⟨i, _, hi⟩ | ⟨_, x, _, _, rfl⟩
  · exact { exec_sameFrame hi with }
  · exact { raise_sameFrame { s with sel := k } x .illegalCmd with }

/-- A host action keeps them too; hardware reset makes `NINST` fresh instances. -/
theorem act_sameFrame {s t : State} {a : HostAction} (hn : s.insts.length = s.params.ninst)
    (ht : s.act a = .next t) : s.SameFrame t := by
  rcases act_next_cases ht with ⟨_, k, _, x, _, _, _, _, hissue⟩ | ⟨_, _, _, _, _, _, _, _, _, _, _, _, _, _, rfl⟩ |
    ⟨_, _, _, _, _, _, _, _, rfl⟩ | ⟨_, _, _, _, rfl⟩ | ⟨_, _, _, _, rfl⟩ | ⟨_, rfl⟩
  · obtain ⟨hscript, hparams, hlength⟩ := issue_sameFrame hissue
    exact ⟨hscript, hparams, hlength.trans List.length_set⟩
  · exact ⟨rfl, rfl, List.length_set⟩
  · exact ⟨rfl, rfl, rfl⟩
  · exact ⟨rfl, rfl, rfl⟩
  · exact ⟨rfl, rfl, rfl⟩
  · exact ⟨rfl, rfl, List.length_replicate.trans hn.symm⟩

/-- Settles O8: the step removes the action, and the action keeps the rest of the script. -/
theorem stepTakesOneActionAndKeepsTheParameters : Obligations.StepTakesOneActionAndKeepsTheParameters := by
  intro s t hn ht
  cases hs : s.script with
  | nil => rw [step_of_script_nil hs] at ht; cases ht; exact ⟨hs, rfl, rfl⟩
  | cons a rest =>
    rw [step_of_script_cons hs] at ht
    obtain ⟨hscript, hparams, hlength⟩ := act_sameFrame (s := { s with script := rest }) hn ht
    exact ⟨hscript, hparams, hlength⟩

/-! ### Host register accesses (R36) -/

/-- Only the numbers 0 to 15 name a register. -/
theorem hostReg_le {n : Nat} {r : HostReg} (hr : hostReg n = some r) : n ≤ 15 := by
  by_contra hgt
  rw [(hostReg_eq_none_iff n).mpr (by omega)] at hr
  cases hr

/-- The register map gives each register one number. -/
theorem hostReg_injective {m n : Nat} {r : HostReg} (hm : hostReg m = some r) (hn : hostReg n = some r) : m = n := by
  have distinct : ∀ a b : Fin 16, hostReg a = hostReg b → a = b := by decide
  have hm15 := hostReg_le hm
  have hn15 := hostReg_le hn
  exact congrArg Fin.val (distinct ⟨m, by omega⟩ ⟨n, by omega⟩ (hm.trans hn.symm))

/-- Registers 0 to 12 and `CMD` have the width the table of R36 gives their numbers. -/
theorem hostRegWidth_eq_width (p : Params) {n : Nat} {r : HostReg} (hr : hostReg n = some r) :
    hostRegWidth p r = HostAction.width p n := by
  unfold hostReg at hr
  split at hr <;> cases hr <;> rfl

/-- Registers 0 to 12 are those a host write has a meaning for, besides `CMD`. -/
theorem writeHostReg_of_le {n : Nat} (hn : n ≤ 12) (x : Instance) (v : Nat) :
    ∃ r y, hostReg n = some r ∧ writeHostReg x v r = some y := by
  interval_cases n <;> exact ⟨_, _, rfl, rfl⟩

theorem hashWord_setHashWord_same (s : HashState) (j : Fin 8) (w : Word) : hashWord (setHashWord s j w) j = w := by
  fin_cases j <;> rfl

theorem hashWord_setHashWord_other (s : HashState) {i j : Fin 8} (w : Word) (hij : i ≠ j) :
    hashWord (setHashWord s j w) i = hashWord s i := by
  fin_cases j <;> fin_cases i <;> trivial

/-- No register shows the record of the writing agent. -/
theorem readHostReg_writer (c : Cfg) (x : Instance) (w : Option Nat) (q : HostReg) :
    readHostReg c { x with writer := w } q = readHostReg c x q := by cases q <;> rfl

/-- A register reads back as what was written to it, if that fits. -/
theorem readHostReg_write_same {p : Params} {x y : Instance} {v : Nat} {r : HostReg} (c : Cfg)
    (hy : writeHostReg x v r = some y) (hv : v < 2 ^ hostRegWidth p r) : readHostReg c y r = some v := by
  cases r with
  | h j =>
    cases hy
    have hword : (BitVec.ofNat 32 v).toNat = v := (BitVec.toNat_ofNat ..).trans (Nat.mod_eq_of_lt hv)
    simp only [readHostReg, hashWord_setHashWord_same, hword]
  | srcAddr | srcLen | dstAddr | dstLen | cnt => cases hy; rfl
  | status | cfg | cmd => cases hy

/-- Every other register reads as before. -/
theorem readHostReg_write_other {x y : Instance} {v : Nat} {r q : HostReg} (c : Cfg)
    (hy : writeHostReg x v r = some y) (hq : q ≠ r) : readHostReg c y q = readHostReg c x q := by
  cases r with
  | h j =>
    cases hy
    cases q with
    | h i =>
      have hij : i ≠ j := fun hij => hq (hij ▸ rfl)
      simp only [readHostReg, hashWord_setHashWord_other _ _ hij]
    | _ => rfl
  | status | cfg | cmd => cases hy
  | _ => cases hy; cases q <;> trivial

/-- A step at a register write by an agent that may write the instance (R36). -/
theorem step_wr {s : State} {agent k n v : Nat} {rest : List HostAction} {x : Instance}
    (hs : s.script = .wr agent k n v :: rest) (hx : s.insts[k]? = some x) (hw : x.FreeFor agent) :
    step s = State.writeReg { s with script := rest } agent k n v x := by
  rw [step_of_script_cons hs, act_wr (s := { s with script := rest }) hx hw]

/-- A step at a register read (R36). -/
theorem step_rd {s : State} {agent k n : Nat} {rest : List HostAction} {x : Instance}
    (hs : s.script = .rd agent k n :: rest) (hx : s.insts[k]? = some x) :
    step s = State.readReg { s with script := rest } k n x := by
  rw [step_of_script_cons hs, act_rd (s := { s with script := rest }) hx]

/-- A readable register hands over its value. -/
theorem readReg_of_value {s : State} {k n v : Nat} {x : Instance}
    (hv : (hostReg n).bind (readHostReg s.cfg x) = some v) :
    s.readReg k n x = .next { s with received := .reg k n v :: s.received } := by
  simp only [State.readReg, hv]

/-- A register that cannot be read is refused (log 12). -/
theorem readReg_refused {s : State} {k n : Nat} {x : Instance} (hv : (hostReg n).bind (readHostReg s.cfg x) = none) :
    s.readReg k n x = .refused .hostRegisterAccess := by
  simp only [State.readReg, hv]

/-- What a host reads at each number of the register map, in the map's order (R36). -/
theorem readHostReg_eq_getElem (c : Cfg) (x : Instance) (n : Nat) :
    (hostReg n).bind (readHostReg c x) =
      [x.h.a.toNat, x.h.b.toNat, x.h.c.toNat, x.h.d.toNat, x.h.e.toNat, x.h.f.toNat, x.h.g.toNat, x.h.h.toNat,
        x.srcAddr, x.srcLen, x.dstAddr, x.dstLen, x.cnt, x.statusWord.toNat, c.word.toNat][n]? := by
  rcases Nat.lt_or_ge 15 n with hn | hn
  · rw [(hostReg_eq_none_iff n).mpr hn, List.getElem?_eq_none (by simp; omega)]
    rfl
  · interval_cases n <;> rfl

/-- Settles O9: the register map read in order. -/
theorem hostReadReturnsTheRegisterAndChangesNothing : Obligations.HostReadReturnsTheRegisterAndChangesNothing := by
  intro s agent k n rest x v hs hx hv
  rw [step_rd hs hx]
  exact readReg_of_value ((readHostReg_eq_getElem s.cfg x n).trans hv)

/-- Settles O10: the written register reads back, and the rest is `writeHostReg`'s frame. -/
theorem hostWriteReplacesOneRegister : Obligations.HostWriteReplacesOneRegister := by
  intro s agent k n v rest x hs hx hw hn hv
  obtain ⟨r, y, hr, hy⟩ := writeHostReg_of_le hn x v
  rw [← hostRegWidth_eq_width s.params hr] at hv
  obtain ⟨hbuf, hbufLen, htotal, hhst, herr, -⟩ := writeHostReg_keeps hy
  refine ⟨{ y with writer := some agent }, ?_, ?_, fun m _ hmn => ?_, hbuf, hbufLen, htotal, hhst, herr, rfl⟩
  · exact (step_wr hs hx hw).trans (writeReg_of_fits hr hy hv)
  · rw [hr, Option.bind_some, readHostReg_writer]
    exact readHostReg_write_same s.cfg hy hv
  · cases hq : hostReg m with
    | none => rfl
    | some q =>
      rw [Option.bind_some, Option.bind_some, readHostReg_writer]
      exact readHostReg_write_other s.cfg hy fun hqr => hmn (hostReg_injective (hqr ▸ hq) hr)

/-! ### Refused accesses (R36, U5, U7) -/

/-- `STATUS`, `CFG` and the numbers above 15 cannot be written (log 12). -/
theorem writeReg_unlisted {s : State} {agent k n v : Nat} {x : Instance} (hn : n = 13 ∨ n = 14 ∨ 15 < n) :
    s.writeReg agent k n v x = .refused .hostRegisterAccess := by
  rcases hn with rfl | rfl | hn
  · rfl
  · rfl
  · simp only [State.writeReg, (hostReg_eq_none_iff n).mpr hn]

/-- A word of more than 32 bits does not fit `CMD` (log 12). -/
theorem writeReg_cmd_too_wide {s : State} {agent k v : Nat} {x : Instance} (hv : 2 ^ 32 ≤ v) :
    s.writeReg agent k 15 v x = .refused .hostValueTooWide := if_pos hv

/-- A register write is refused while another agent is in the middle of its writes (log 11). -/
theorem act_wr_of_busy {s : State} {agent other k n v : Nat} {x : Instance} (hx : s.insts[k]? = some x)
    (hw : x.writer = some other) (hother : other ≠ agent) :
    s.act (.wr agent k n v) = .refused .hostsInterleave := by
  simp [State.act, hx, hw, hother]

theorem act_rd_of_no_instance {s : State} {agent k n : Nat} (hx : s.insts[k]? = none) :
    s.act (.rd agent k n) = .refused .noSuchInstance := by
  simp only [State.act, hx]

theorem act_wr_of_no_instance {s : State} {agent k n v : Nat} (hx : s.insts[k]? = none) :
    s.act (.wr agent k n v) = .refused .noSuchInstance := by
  simp only [State.act, hx]

/-- Settles O11: the refusals of `act`, `readReg` and `writeReg`, one by one. -/
theorem unlistedHostAccessesAreRefused : Obligations.UnlistedHostAccessesAreRefused := by
  refine ⟨fun s agent k n rest x hs hx hn => ?_,
    fun s agent k n v rest x hs hx hw => ⟨fun hn => ?_, fun hn hv => ?_⟩,
    fun s agent other k n v rest x hs hx hw hother => ?_, fun s agent k n v rest hk => ?_⟩
  · rw [step_rd hs hx]
    exact readReg_refused ((readHostReg_eq_getElem s.cfg x n).trans (List.getElem?_eq_none hn))
  · rw [step_wr hs hx hw, writeReg_unlisted hn]
  · rw [step_wr hs hx hw]
    rcases hn with hn | rfl
    · obtain ⟨r, y, hr, hy⟩ := writeHostReg_of_le hn x v
      rw [← hostRegWidth_eq_width s.params hr] at hv
      exact writeReg_too_wide hr hy hv
    · exact writeReg_cmd_too_wide hv
  · rw [step_of_script_cons hs, act_wr_of_busy (s := { s with script := rest }) hx hw hother]
  · have hx : s.insts[k]? = none := List.getElem?_eq_none hk
    exact ⟨fun hs => by rw [step_of_script_cons hs, act_rd_of_no_instance (s := { s with script := rest }) hx],
      fun hs => by rw [step_of_script_cons hs, act_wr_of_no_instance (s := { s with script := rest }) hx]⟩

/-! ### The frame of every command (R94) -/

/-- What a completing command leaves of the hasher registers (R20, R94). -/
theorem instOf_hasher_frame (i : Instr) (s : State) (x : Instance) :
    (i ∉ [Instr.transform, .hReset, .hWrite, .hFinalize] → (instOf i s x).h = x.h) ∧
      (i ≠ .hWrite → (instOf i s x).buf = x.buf) ∧
      (i ∉ [Instr.hReset, .hWrite] → (instOf i s x).bufLen = x.bufLen ∧ (instOf i s x).total = x.total) ∧
      (i ∉ [Instr.hReset, .hWrite, .hFinalize] → (instOf i s x).hst = x.hst) := by
  cases i <;> simp [instOf]

/-- Only the issuing DISPATCH's fault `E_SELFTEST` touches `CFG` (R254). -/
theorem raise_cfg_of_ne_dispatch {i : Instr} {s : State} {x : Instance} {e : ErrCode} (hi : i ≠ .dispatch)
    (hc : firstFault (checksOf i s x) = some e) : (s.raise x e).cfg = s.cfg := by
  rw [State.raise_cfg, if_neg]
  rintro rfl
  exact hi (checksOf_some hc).1.1

/-- Settles O24: a fault changes the error code alone, and an effect changes what `instOf` and `outputOf` say. -/
theorem commandsChangeOnlyWhatTheTableSays : Obligations.CommandsChangeOnlyWhatTheTableSays := by
  intro i s t x hx ht
  obtain ⟨x', hx', hcases⟩ := exec_next_cases ht
  obtain rfl : x = x' := Option.some.inj (hx.symm.trans hx')
  obtain ⟨e, hc, rfl⟩ | ⟨hc, rfl⟩ := hcases
  · refine ⟨s.raise_params x e, s.raise_script x e, s.raise_sel x e, fun j hj => other_of_set (s.raise_insts x e) hj,
      fun hi => ⟨raise_cfg_of_ne_dispatch hi hc, s.raise_abt x e, s.raise_received x e⟩,
      fun _ a => by rw [State.raise_mem], { x with err := e },
      current_of_set hx (s.raise_insts x e) (s.raise_sel x e), rfl, rfl, rfl, rfl, rfl, rfl,
      fun _ => rfl, fun _ => rfl, fun _ => ⟨rfl, rfl⟩, fun _ => rfl⟩
  · obtain ⟨hsrcAddr, hsrcLen, hdstAddr, hdstLen, hcnt, hwriter⟩ := instOf_operands i s x
    refine ⟨effectOf_params i s x, effectOf_script i s x, effectOf_sel i s x,
      fun j hj => other_of_set (effectOf_insts i s x) hj,
      fun hi => ⟨effectOf_cfg_of_ne s x hi, effectOf_abt_of_ne s x hi, effectOf_received_of_ne s x hi⟩,
      fun hw a => ?_, { instOf i s x with err := .ok },
      current_of_set hx (effectOf_insts i s x) (effectOf_sel i s x),
      hsrcAddr, hsrcLen, hdstAddr, hdstLen, hcnt, hwriter, instOf_hasher_frame i s x⟩
    rw [effectOf_mem, (output_fills_destination hc).1 hw, Memory.writeBytes]

/-! ### Commands that ignore the hasher (R20, R180, R212) -/

/-- The commands that neither read nor write `H` and the hasher registers. -/
def hasherBlind : List Instr := [.d64, .d64Way2, .d64Way4, .d64Way8, .sha256d64, .dispatch]

/-- `x` with other values in `H` and the hasher registers. -/
def Instance.withHasher (x : Instance) (h : HashState) (buf : Vector Byte 64) (bufLen : Fin 64) (total : BitVec 64)
    (hst : HasherState) : Instance :=
  { x with h := h, buf := buf, bufLen := bufLen, total := total, hst := hst }

@[simp] theorem State.put_put (s : State) (x y : Instance) : (s.put x).put y = s.put y := by
  simp [State.put, List.set_set]

section HasherBlind
variable (s : State) (x : Instance) (h : HashState) (buf : Vector Byte 64) (bufLen : Fin 64) (total : BitVec 64)
  (hst : HasherState)

/-- A fault does not depend on the registers that stand beside the error code. -/
theorem raise_withHasher (e : ErrCode) :
    (s.put (x.withHasher h buf bufLen total hst)).raise (x.withHasher h buf bufLen total hst) e =
      (s.raise x e).put (Instance.withHasher { x with err := e } h buf bufLen total hst) := by
  by_cases he : e = .selftest <;> simp [State.raise, he, State.put, Instance.withHasher]

/-- These commands change no register of their instance but the error code. -/
theorem instOf_hasherBlind {i : Instr} (hi : i ∈ hasherBlind) : instOf i s x = x := by
  fin_cases hi <;> rfl

theorem checksOf_withHasher {i : Instr} (hi : i ∈ hasherBlind) :
    checksOf i (s.put (x.withHasher h buf bufLen total hst)) (x.withHasher h buf bufLen total hst) =
      checksOf i s x := by
  fin_cases hi <;> rfl

/-- A DISPATCH, repeated or the first, hands over its summary and leaves the hasher registers as they are (R212). -/
theorem dispatchEffect_withHasher :
    dispatchEffect (s.put (x.withHasher h buf bufLen total hst)) (x.withHasher h buf bufLen total hst) =
      (dispatchEffect s x).put (Instance.withHasher { x with err := .ok } h buf bufLen total hst) := by
  cases hv : s.cfg.valid <;> simp [dispatchEffect, hv, State.put, State.commit, Instance.withHasher]

theorem effectOf_withHasher {i : Instr} (hi : i ∈ hasherBlind) :
    effectOf i (s.put (x.withHasher h buf bufLen total hst)) (x.withHasher h buf bufLen total hst) =
      (effectOf i s x).put (Instance.withHasher { x with err := .ok } h buf bufLen total hst) := by
  cases i with
  | dispatch => exact dispatchEffect_withHasher s x h buf bufLen total hst
  | d64 | d64Way2 | d64Way4 | d64Way8 | sha256d64 =>
    simp [effectOf, d64Effect, sha256d64Effect, State.put, State.commit, Instance.withHasher]
  | transform | hReset | hWrite | hFinalize => exact absurd hi (by decide)

end HasherBlind

/-- Settles O26: neither the checks nor the effect of these commands look at the hasher. -/
theorem doubleHashesAndDispatchIgnoreTheHasher : Obligations.DoubleHashesAndDispatchIgnoreTheHasher := by
  intro i s t x h buf bufLen total hst hi hx ht
  have hx' : (s.put (x.withHasher h buf bufLen total hst)).current = some (x.withHasher h buf bufLen total hst) :=
    current_of_set hx rfl rfl
  have hchecks := checksOf_withHasher s x h buf bufLen total hst hi
  cases hc : firstFault (checksOf i s x) with
  | some e =>
    rw [exec_raises hx hc] at ht
    cases ht
    refine ⟨{ x with err := e }, current_of_set hx (s.raise_insts x e) (s.raise_sel x e), rfl, rfl, rfl, rfl, rfl, ?_⟩
    exact (exec_raises hx' (hchecks ▸ hc)).trans (congrArg _ (raise_withHasher s x h buf bufLen total hst e))
  | none =>
    rw [exec_completes hx hc] at ht
    cases ht
    have hinsts : (effectOf i s x).insts = s.insts.set s.sel { x with err := .ok } := by
      rw [effectOf_insts, instOf_hasherBlind s x hi]
    refine ⟨{ x with err := .ok }, current_of_set hx hinsts (effectOf_sel i s x), rfl, rfl, rfl, rfl, rfl, ?_⟩
    exact (exec_completes hx' (hchecks ▸ hc)).trans (congrArg _ (effectOf_withHasher s x h buf bufLen total hst hi))

/-! ### The words of `STATUS` and `CFG` (R34, R35, R251) -/

/-- Bit `i` of `CFG` is the `i`-th of its fields, and 0 from bit 6 on (R34). -/
theorem cfgWord_getLsbD (c : Cfg) (i : Nat) :
    c.word.getLsbD i = ([c.valid, c.dead, c.w1, c.w2, c.w4, c.w8][i]?).getD false := by
  rcases Nat.lt_or_ge i 6 with hi | hi
  · interval_cases i <;> simp only [Cfg.word, BitVec.getLsbD_append] <;> simp
  · obtain ⟨j, rfl⟩ := Nat.exists_eq_add_of_le' hi
    simp only [Cfg.word, BitVec.getLsbD_append]
    simp

/-- `STATUS` is `HST` above the eight bits of `ERR` (R35). -/
theorem statusWord_toNat (x : Instance) : x.statusWord.toNat = x.hst.code.toNat * 256 + x.err.code.toNat := by
  simp only [Instance.statusWord, append_toNat]
  simp

theorem HasherState.code_le (h : HasherState) : h.code.toNat ≤ 2 := by cases h <;> decide

theorem ErrCode.code_le (e : ErrCode) : e.code.toNat ≤ 0x0B := by cases e <;> decide

/-- Settles O57: the two words by their fields, and the codes in the order of the table. -/
theorem statusAndCfgBits : Obligations.StatusAndCfgBits :=
  ⟨cfgWord_getLsbD, fun x => ⟨statusWord_toNat x, x.hst.code_le, x.err.code_le⟩, by decide⟩

end Sys2Proof.Machine
end

section
/-! PROOF. The statements of the memory family: what a read returns and a write changes (spec 20_memory.md R61, R62),
that a command writes its whole destination and nothing else (R79), the order of the digests (R78), and commands on
different instances (R72). -/

namespace Sys2Proof.Machine

/-! ### The bytes of a buffer (R61, R62) -/

/-- The byte at `x` after a write: the stored one inside the buffer, the old one elsewhere (R62). -/
theorem Memory.read_writeBytes (m : Memory) (addr : Nat) (s : List Byte) (x : Nat) :
    (m.writeBytes addr s).read x = if h : addr ≤ x ∧ x < addr + s.length then s[x - addr] else m.read x := by
  split
  next h =>
    obtain ⟨i, rfl⟩ := Nat.exists_eq_add_of_le h.1
    simpa using Memory.read_writeBytes_inside (m := m) (addr := addr) (s := s) (i := i) (by omega)
  next h => exact Memory.read_writeBytes_outside (by omega)

/-- Writes of buffers that share no byte may be made in either order (R72). -/
theorem Memory.read_writeBytes_comm (m : Memory) {addr addr' : Nat} {s s' : List Byte}
    (hd : Disjoint ⟨addr, s.length⟩ ⟨addr', s'.length⟩) (x : Nat) :
    ((m.writeBytes addr s).writeBytes addr' s').read x = ((m.writeBytes addr' s').writeBytes addr s).read x := by
  have hx : ¬((addr ≤ x ∧ x < addr + s.length) ∧ (addr' ≤ x ∧ x < addr' + s'.length)) := hd x
  by_cases hin : addr ≤ x ∧ x < addr + s.length
  · have hout : ¬(addr' ≤ x ∧ x < addr' + s'.length) := fun hin' => hx ⟨hin, hin'⟩
    simp only [Memory.read_writeBytes, dif_pos hin, dif_neg hout]
  · simp only [Memory.read_writeBytes, dif_neg hin]

/-- Part of a buffer, read as a buffer of its own. -/
theorem Memory.readBytes_slice (m : Memory) (addr : Nat) {i n len : Nat} (h : i + n ≤ len) :
    ((m.readBytes addr len).drop i).take n = m.readBytes (addr + i) n := by
  obtain ⟨r, rfl⟩ := Nat.exists_eq_add_of_le h
  rw [Nat.add_assoc, Memory.readBytes_add, List.drop_left' (Memory.readBytes_length ..), Memory.readBytes_add,
    List.take_left' (Memory.readBytes_length ..)]

/-- Part of a buffer just written reads as that part of what was written. -/
theorem Memory.readBytes_writeBytes_slice (m : Memory) (addr : Nat) {s : List Byte} {i n : Nat}
    (h : i + n ≤ s.length) : (m.writeBytes addr s).readBytes (addr + i) n = (s.drop i).take n := by
  rw [← Memory.readBytes_slice _ addr h, Memory.readBytes_writeBytes_same]

/-- Settles O28: each byte read by its address, and each byte written by `read_writeBytes_inside` and `_outside`. -/
theorem memoryReadsAndWritesByteByByte : Obligations.MemoryReadsAndWritesByteByByte := by
  refine ⟨fun m addr n => ⟨m.readBytes_length addr n, fun i hi => ?_⟩,
    fun m addr s => ⟨fun i hi => Memory.read_writeBytes_inside hi, fun a ha => Memory.read_writeBytes_outside ha⟩⟩
  have hi' : i < (m.readBytes addr n).length := by rwa [Memory.readBytes_length]
  rw [List.getElem?_eq_getElem hi', Memory.readBytes_getElem]

/-! ### What a command's answer depends on (R63) -/

/-- `t` holds what a command on registers `x` reads in `s`: the parameters, `CFG` and the bytes of its source. -/
structure State.SameInputs (i : Instr) (x : Instance) (s t : State) : Prop where
  params_eq : t.params = s.params
  cfg_eq : t.cfg = s.cfg
  source_eq : ∀ c ∈ readsOf i x, ∀ a, c.addr ≤ a → a < c.addr + c.len → t.mem.read a = s.mem.read a

section SameInputs
variable {i : Instr} {x : Instance} {s t : State}

theorem State.SameInputs.readBytes_src (h : State.SameInputs i x s t) (hr : readsOf i x = [x.src]) :
    t.mem.readBytes x.srcAddr x.srcLen = s.mem.readBytes x.srcAddr x.srcLen :=
  Memory.readBytes_congr (h.source_eq x.src (by simp [hr]))

/-- The checks do not look at the data space. -/
theorem State.SameInputs.checksOf_eq (h : State.SameInputs i x s t) : checksOf i t x = checksOf i s x := by
  cases i <;>
    simp only [checksOf, transformChecks, d64Checks, dispatchChecks, hWriteChecks, hFinalizeChecks, sha256d64Checks,
      State.readyChecks, State.bufferChecks, State.twoBufferChecks, h.params_eq, h.cfg_eq]

/-- A command that passes its checks finds each length it requires (R94). -/
theorem length_of_pass (hc : firstFault (checksOf i s x) = none) {len required : Nat}
    (hl : (len, required) ∈ requiredLengths i x) : len = required :=
  by_contra fun hne => checksOf_none hc .length ⟨(len, required), hl, hne⟩

/-- The registers a command leaves look at the data space through its source alone. -/
theorem State.SameInputs.instOf_eq (h : State.SameInputs i x s t) : instOf i t x = instOf i s x := by
  cases i with
  | transform | hWrite => simp only [instOf, h.readBytes_src rfl]
  | d64 | d64Way2 | d64Way4 | d64Way8 | dispatch | hReset | hFinalize | sha256d64 => rfl

/-- The bytes a completing command stores are computed from its source and its registers. -/
theorem State.SameInputs.outputOf_eq (h : State.SameInputs i x s t) (hc : firstFault (checksOf i s x) = none) :
    outputOf i t x = outputOf i s x := by
  cases i with
  | transform | dispatch | hReset | hWrite | hFinalize => rfl
  | d64 | d64Way2 | d64Way4 | d64Way8 | sha256d64 =>
    have hsrc := h.readBytes_src rfl
    rw [length_of_pass hc (List.mem_cons_self ..)] at hsrc
    simp only [outputOf, Nat.reduceMul, h.cfg_eq, hsrc]

end SameInputs

/-! ### Completion and fault, told from `STATUS.ERR` (R79) -/

section Answer
variable {i : Instr} {s t : State} {x y : Instance}

/-- A command that leaves an error code has raised it. -/
theorem raised_of_err_ne_ok (hx : s.current = some x) (ht : exec i s = .next t) (hy : t.current = some y)
    (herr : y.err ≠ .ok) : ∃ e, t = s.raise x e := by
  obtain ⟨x', hx', ⟨e, _, rfl⟩ | ⟨_, rfl⟩⟩ := exec_next_cases ht <;>
    obtain rfl : x = x' := Option.some.inj (hx.symm.trans hx')
  · exact ⟨e, rfl⟩
  · rw [current_of_set hx (effectOf_insts i s x) (effectOf_sel i s x)] at hy
    cases hy
    exact absurd rfl herr

/-- A command that leaves the error code 0 has passed its checks and had its effect. -/
theorem completed_of_err_ok (hx : s.current = some x) (ht : exec i s = .next t) (hy : t.current = some y)
    (hok : y.err = .ok) : firstFault (checksOf i s x) = none ∧ t = effectOf i s x := by
  obtain ⟨x', hx', ⟨e, hc, rfl⟩ | hdone⟩ := exec_next_cases ht <;>
    obtain rfl : x = x' := Option.some.inj (hx.symm.trans hx')
  · rw [current_of_set hx (s.raise_insts x e) (s.raise_sel x e)] at hy
    cases hy
    exact absurd hok (firstFault_checksOf_ne hc).1
  · exact hdone

/-- Every byte a completing command stores is one of its destination's (R63, R79). -/
theorem output_in_writesOf (hc : firstFault (checksOf i s x) = none) {a : Nat} (hlo : x.dstAddr ≤ a)
    (hhi : a < x.dstAddr + (outputOf i s x).length) : ∃ b ∈ writesOf i x, b.addr ≤ a ∧ a < b.addr + b.len := by
  obtain ⟨hnone, hsome⟩ := output_fills_destination hc
  rcases writesOf_eq_nil_or_dst i x with hw | hw
  · rw [hnone hw, List.length_nil] at hhi
    omega
  · have hdst : x.dst ∈ writesOf i x := by simp [hw]
    obtain ⟨haddr, hlen⟩ := hsome _ hdst
    exact ⟨x.dst, hdst, by omega, by omega⟩

end Answer

/-- Settles O25: a fault leaves memory as it is; a completing command stores `outputOf`, which is as long as the
destination and depends on the source alone. -/
theorem outputIsWhollyWrittenAndNothingElse : Obligations.OutputIsWhollyWrittenAndNothingElse := by
  intro i s t x y hx ht hy
  refine ⟨fun herr a => ?_, fun hok => ?_⟩
  · obtain ⟨e, rfl⟩ := raised_of_err_ne_ok hx ht hy herr
    rw [State.raise_mem]
  obtain ⟨hc, rfl⟩ := completed_of_err_ok hx ht hy hok
  refine ⟨fun a hout => ?_, fun b hb m hm => ?_⟩
  · rw [effectOf_mem]
    refine Memory.read_writeBytes_outside ?_
    by_contra hin
    obtain ⟨b, hb, hlo, hhi⟩ := output_in_writesOf hc (a := a) (by omega) (by omega)
    have := hout b hb
    omega
  · have hsame : State.SameInputs i x s { s with mem := m } := ⟨rfl, rfl, hm⟩
    obtain ⟨haddr, hlen⟩ := (output_fills_destination hc).2 b hb
    refine ⟨_, exec_completes (s := { s with mem := m }) hx (hsame.checksOf_eq ▸ hc), ?_⟩
    rw [effectOf_mem, effectOf_mem, hsame.outputOf_eq hc, haddr, hlen, Memory.readBytes_writeBytes_same,
      Memory.readBytes_writeBytes_same]

/-! ### The order of the digests (R78) -/

@[simp] theorem foldBlocks_nil (s : HashState) : foldBlocks s [] = s := rfl

/-- A leading block is compressed first (R227). -/
theorem foldBlocks_block_append (s : HashState) {block : List Byte} (data : List Byte) (h : block.length = 64) :
    foldBlocks s (block ++ data) = foldBlocks (compress s block) data := by
  have hq : (block ++ data).length / 64 = data.length / 64 + 1 := by
    rw [List.length_append, h]
    omega
  rw [foldBlocks, hq, compressBlocks, List.take_left' h, List.drop_left' h, foldBlocks]

theorem foldBlocks_block (s : HashState) {block : List Byte} (h : block.length = 64) :
    foldBlocks s block = compress s block := by
  simpa using foldBlocks_block_append s [] h

/-- `PADA` is the padding of a 64-byte message (R138). -/
theorem pad_64 : pad 64 = encWords Rom.PADA := by decide

/-- `PADB` is the padding of a 32-byte message (R139). -/
theorem pad_32 : pad 32 = encWords Rom.PADB := by decide

/-- A 64-byte message is hashed by two compressions, the second of `PADA` (R181). -/
theorem sha256_of_length_64 {x : List Byte} (h : x.length = 64) :
    sha256 x = digest (compress (compress Rom.IV x) (encWords Rom.PADA)) := by
  rw [sha256, h, pad_64, foldBlocks_block_append _ _ h, foldBlocks_block _ (by simp [Rom.PADA])]

/-- A 32-byte message is hashed by one compression, of the message and `PADB` (R181). -/
theorem sha256_of_length_32 {x : List Byte} (h : x.length = 32) :
    sha256 x = digest (compress Rom.IV (x ++ encWords Rom.PADB)) := by
  rw [sha256, h, pad_32, foldBlocks_block _ (by simp [Rom.PADB, h])]

/-- `D64fn` is the double hash of a block (R182). -/
theorem d64fn_eq_sha256_sha256 {x : List Byte} (h : x.length = 64) : d64fn x = sha256 (sha256 x) := by
  rw [sha256_of_length_64 h, sha256_of_length_32 (digest_length _), d64fn]

/-- The commands that write several digests, each beside the number of blocks it hashes (R78, R93). -/
def digestCommands (x : Instance) : List (Instr × Nat) :=
  [(.d64, 1), (.d64Way2, 2), (.d64Way4, 4), (.d64Way8, 8), (.sha256d64, x.cnt)]

/-- These commands store `D64fn` of each block of the source in order, lane by lane or group by group (R187, R240). -/
theorem outputOf_eq_flatMap_d64fn {i : Instr} {n : Nat} (s : State) {x : Instance} (h : (i, n) ∈ digestCommands x) :
    outputOf i s x = (laneBlocks n (s.mem.readBytes x.srcAddr (64 * n))).flatMap d64fn := by
  have hsum : (plan s.cfg x.cnt).sum = x.cnt := planWithin_sum s.cfg x.cnt x.cnt (Nat.le_refl _)
  simp only [digestCommands, List.mem_cons, List.not_mem_nil, or_false, Prod.mk.injEq] at h
  rcases h with ⟨rfl, rfl⟩ | ⟨rfl, rfl⟩ | ⟨rfl, rfl⟩ | ⟨rfl, rfl⟩ | ⟨rfl, rfl⟩
  case inr.inr.inr.inr => rw [outputOf, runPlan_eq, hsum]
  all_goals exact laneGroup_eq _ _

/-- Settles O39: the 32 bytes at offset `32 k` of the output are `D64fn` of lane `k`'s block, its double hash. -/
theorem digestsStandInTheOrderOfTheBlocks : Obligations.DigestsStandInTheOrderOfTheBlocks := by
  intro i n s t x y k hx hi ht hy hok hk
  obtain ⟨-, rfl⟩ := completed_of_err_ok hx ht hy hok
  have hlane : k < (laneBlocks n (s.mem.readBytes x.srcAddr (64 * n))).length := by rwa [laneBlocks_length]
  have hout := outputOf_eq_flatMap_d64fn s hi
  have hlen : 32 * k + 32 ≤ (outputOf i s x).length := by
    rw [hout, flatMap_d64fn_length]
    omega
  rw [effectOf_mem, Memory.readBytes_writeBytes_slice _ _ hlen, hout, flatMap_d64fn_slice _ k hlane,
    laneBlocks_getElem, Memory.readBytes_slice _ _ (by omega), d64fn_eq_sha256_sha256 (Memory.readBytes_length ..)]

/-! ### Commands on different instances (R72) -/

/-- The registers a command leaves in its instance, whether it faults or completes. -/
def instAfter (i : Instr) (s : State) (x : Instance) : Instance :=
  match firstFault (checksOf i s x) with
  | some e => { x with err := e }
  | none => { instOf i s x with err := .ok }

/-- The bytes a command stores at `DST_ADDR`, none if it faults. -/
def storedBy (i : Instr) (s : State) (x : Instance) : List Byte :=
  match firstFault (checksOf i s x) with
  | some _ => []
  | none => outputOf i s x

section Commute
variable {i j : Instr} {s t : State} {x y : Instance}

theorem State.SameInputs.instAfter_eq (h : State.SameInputs i x s t) : instAfter i t x = instAfter i s x := by
  simp only [instAfter, h.checksOf_eq, h.instOf_eq]

theorem State.SameInputs.storedBy_eq (h : State.SameInputs i x s t) : storedBy i t x = storedBy i s x := by
  simp only [storedBy, h.checksOf_eq]
  split
  next => rfl
  next hc => exact h.outputOf_eq hc

/-- Every byte a command stores is one of its destination's. -/
theorem storedBy_in_writesOf {a : Nat} (hlo : x.dstAddr ≤ a) (hhi : a < x.dstAddr + (storedBy i s x).length) :
    ∃ b ∈ writesOf i x, b.addr ≤ a ∧ a < b.addr + b.len := by
  unfold storedBy at hhi
  split at hhi
  next => rw [List.length_nil] at hhi; omega
  next hc => exact output_in_writesOf hc hlo hhi

/-- The whole answer of a command other than DISPATCH, field by field. -/
structure State.After (i : Instr) (x : Instance) (s t : State) : Prop where
  params_eq : t.params = s.params
  insts_eq : t.insts = s.insts.set s.sel (instAfter i s x)
  mem_eq : t.mem = s.mem.writeBytes x.dstAddr (storedBy i s x)
  cfg_eq : t.cfg = s.cfg
  abt_eq : t.abt = s.abt

theorem exec_after (hi : i ≠ .dispatch) (hx : s.current = some x) (ht : exec i s = .next t) :
    State.After i x s t := by
  obtain ⟨x', hx', ⟨e, hc, rfl⟩ | ⟨hc, rfl⟩⟩ := exec_next_cases ht <;>
    obtain rfl : x = x' := Option.some.inj (hx.symm.trans hx')
  · exact ⟨s.raise_params x e, by simp [instAfter, hc], by simp [storedBy, hc, Memory.writeBytes],
      raise_cfg_of_ne_dispatch hi hc, s.raise_abt x e⟩
  · exact ⟨effectOf_params i s x, by simp [instAfter, hc], by simp [storedBy, hc],
      effectOf_cfg_of_ne s x hi, effectOf_abt_of_ne s x hi⟩

/-- What a command stores leaves the source of another as it is, if its destination does not meet that source. -/
theorem State.After.sameInputs (h : State.After i x s t)
    (hd : ∀ b ∈ writesOf i x, ∀ c ∈ readsOf j y, Disjoint b c) : State.SameInputs j y s t := by
  refine ⟨h.params_eq, h.cfg_eq, fun c hcr a hlo hhi => ?_⟩
  rw [h.mem_eq]
  refine Memory.read_writeBytes_outside ?_
  by_contra hin
  obtain ⟨b, hb, hblo, hbhi⟩ := storedBy_in_writesOf (i := i) (s := s) (x := x) (a := a) (by omega) (by omega)
  exact hd b hb c hcr a ⟨⟨hblo, hbhi⟩, hlo, hhi⟩

/-- What two commands store in disjoint destinations shares no byte. -/
theorem storedBy_disjoint (hd : ∀ b ∈ writesOf i x, ∀ c ∈ writesOf j y, Disjoint b c) :
    Disjoint ⟨x.dstAddr, (storedBy i s x).length⟩ ⟨y.dstAddr, (storedBy j s y).length⟩ := by
  rintro a ⟨⟨hlo, hhi⟩, hlo', hhi'⟩
  obtain ⟨b, hb, hbin⟩ := storedBy_in_writesOf hlo hhi
  obtain ⟨c, hc, hcin⟩ := storedBy_in_writesOf hlo' hhi'
  exact hd b hb c hc a ⟨hbin, hcin⟩

/-- A command on instance `k` and then one on instance `l`, whose source the first does not touch: each does what it
does from the state before both. -/
theorem exec_exec_after {k l : Nat} {u : State} (hkl : k ≠ l) (hi : i ≠ .dispatch) (hj : j ≠ .dispatch)
    (hx : s.insts[k]? = some x) (hy : s.insts[l]? = some y)
    (hd : ∀ b ∈ writesOf i x, ∀ c ∈ readsOf j y, Disjoint b c)
    (ht : exec i { s with sel := k } = .next t) (hu : exec j { t with sel := l } = .next u) :
    u.insts = (s.insts.set k (instAfter i s x)).set l (instAfter j s y) ∧
      u.mem = (s.mem.writeBytes x.dstAddr (storedBy i s x)).writeBytes y.dstAddr (storedBy j s y) ∧
      u.cfg = s.cfg ∧ u.abt = s.abt := by
  have hsel : State.SameInputs i x s { s with sel := k } := ⟨rfl, rfl, fun _ _ _ _ _ => rfl⟩
  have hfirst := exec_after hi (s := { s with sel := k }) hx ht
  have hsecond := exec_after hj (s := { t with sel := l }) (x := y)
    (by simpa [State.current, hfirst.insts_eq, List.getElem?_set_ne hkl] using hy) hu
  obtain ⟨hparams, hcfg, hsource⟩ := hfirst.sameInputs hd
  have hinputs : State.SameInputs j y s { t with sel := l } := ⟨hparams, hcfg, hsource⟩
  refine ⟨?_, ?_, hsecond.cfg_eq.trans hfirst.cfg_eq, hsecond.abt_eq.trans hfirst.abt_eq⟩
  · rw [hsecond.insts_eq, hinputs.instAfter_eq, hfirst.insts_eq, hsel.instAfter_eq]
  · rw [hsecond.mem_eq, hinputs.storedBy_eq, hfirst.mem_eq, hsel.storedBy_eq]

end Commute

/-- Settles O27: in either order each command does what it does from the first state, to its own registers and to bytes
that the other does not touch. -/
theorem commandsOnDifferentInstancesCommute : Obligations.CommandsOnDifferentInstancesCommute := by
  intro i j k l s t₁ t₂ u₁ u₂ x y hkl hi hj hx hy hij hji ht₁ ht₂ hu₁ hu₂
  obtain ⟨hinsts, hmem, hcfg, habt⟩ := exec_exec_after hkl hi hj hx hy
    (fun b hb c hc => hij b hb c (List.mem_append_left _ hc)) ht₁ ht₂
  obtain ⟨hinsts', hmem', hcfg', habt'⟩ := exec_exec_after hkl.symm hj hi hy hx
    (fun b hb c hc => hji b hb c (List.mem_append_left _ hc)) hu₁ hu₂
  have hdst := storedBy_disjoint (s := s) fun b hb c hc => hij b hb c (List.mem_append_right _ hc)
  refine ⟨?_, fun a => ?_, hcfg.trans hcfg'.symm, habt.trans habt'.symm⟩
  · rw [hinsts, hinsts', List.set_comm _ _ hkl]
  · rw [hmem, hmem', Memory.read_writeBytes_comm _ hdst]

end Sys2Proof.Machine
end

section
/-! PROOF. The statements of the encoding family: the decoder and the encoder are inverse to each other, and the decoder
is the rule's chain of tests (spec 30_encoding.md R91 to R96). -/

namespace Sys2Proof

open Machine

/-! ### The fields of a word (R91) -/

theorem fieldsOf_rsv_toNat (c : Word) : (fieldsOf c).rsv.toNat = c.toNat / 2 ^ 10 := by
  have := c.isLt
  simp only [fieldsOf, BitVec.extractLsb'_toNat, Nat.shiftRight_eq_div_pow]
  omega

theorem fieldsOf_logw_toNat (c : Word) : (fieldsOf c).logw.toNat = c.toNat / 256 % 4 := by
  simp [fieldsOf, BitVec.extractLsb'_toNat, Nat.shiftRight_eq_div_pow]

theorem fieldsOf_opc_toNat (c : Word) : (fieldsOf c).opc.toNat = c.toNat % 256 := by
  simp [fieldsOf, BitVec.extractLsb'_toNat]

/-- The fields cover the whole word, so they determine it. -/
theorem append_fieldsOf (c : Word) : (fieldsOf c).rsv ++ (fieldsOf c).logw ++ (fieldsOf c).opc = c := by
  apply BitVec.eq_of_toNat_eq
  simp only [append_toNat, fieldsOf_rsv_toNat, fieldsOf_logw_toNat, fieldsOf_opc_toNat]
  omega

/-- The fields of a command's word: `RSV` = 0 and the command's row of the opcode map (R92). -/
def Instr.fields (i : Instr) : CommandFields := ⟨0, i.logw, i.opc⟩

theorem fieldsOf_encode (i : Instr) : fieldsOf (encode i) = i.fields := by
  cases i <;> rfl

theorem fieldsOf_eq_fields_iff {c : Word} {i : Instr} : fieldsOf c = i.fields ↔ encode i = c := by
  constructor
  · intro h
    rw [← append_fieldsOf c, h]
    rfl
  · rintro rfl
    exact fieldsOf_encode i

/-! ### The decoder on fields (R95) -/

theorem toOption_eq_some_iff {ε α : Type} {r : Except ε α} {a : α} : r.toOption = some a ↔ r = .ok a := by
  cases r <;> simp [Except.toOption]

theorem decodeD64_fields (logw : BitVec 2) : (decodeD64 logw).fields = ⟨0, logw, 0x02⟩ := by
  revert logw
  decide

theorem fields_of_decodeOpc {opc : BitVec 8} {i : Instr} (h : decodeOpc opc = some i) : i.fields = ⟨0, 0, opc⟩ := by
  unfold decodeOpc at h
  split_ifs at h <;> cases h <;> subst opc <;> rfl

/-- Beside the D64 family's 0x02, the assigned operation codes are those up to 0x07 but for 0x00 (R96). -/
theorem exists_decodeOpc {opc : BitVec 8} (hopc : opc ≠ 0x02) (hlo : 1 ≤ opc.toNat) (hhi : opc.toNat ≤ 7) :
    ∃ i, decodeOpc opc = some i := by
  rw [← Option.ne_none_iff_exists']
  intro h
  unfold decodeOpc at h
  split_ifs at h
  bv_omega

/-- The decoder tests `RSV`, then the D64 family's operation code, then `LOGW`, then the other operation codes. -/
theorem decodeFields_toOption (c : CommandFields) :
    (decodeFields c).toOption =
      if c.rsv ≠ 0 then none
      else if c.opc = 0x02 then some (decodeD64 c.logw)
      else if c.logw ≠ 0 then none
      else decodeOpc c.opc := by
  unfold decodeFields
  cases decodeOpc c.opc <;> split_ifs <;> rfl

/-- The decoder accepts the fields of the ten commands and no others. -/
theorem decodeFields_eq_ok_iff {c : CommandFields} {i : Instr} : decodeFields c = .ok i ↔ c = i.fields := by
  constructor
  · obtain ⟨rsv, logw, opc⟩ := c
    rw [← toOption_eq_some_iff, decodeFields_toOption]
    intro h
    split_ifs at h with hrsv hopc hlogw
    · obtain rfl : rsv = 0 := not_not.mp hrsv
      obtain rfl : opc = 0x02 := hopc
      obtain rfl := Option.some.inj h
      exact (decodeD64_fields logw).symm
    · obtain rfl : rsv = 0 := not_not.mp hrsv
      obtain rfl : logw = 0 := not_not.mp hlogw
      exact (fields_of_decodeOpc h).symm
  · rintro rfl
    cases i <;> rfl

/-- Well-formed fields are those of a command (R96). -/
theorem wellFormed_iff_exists_fields {c : CommandFields} : c.wellFormed = true ↔ ∃ i : Instr, c = i.fields := by
  constructor
  · obtain ⟨rsv, logw, opc⟩ := c
    simp only [CommandFields.wellFormed, CommandFields.rsvOk, CommandFields.opcOk, CommandFields.logwOk,
      Bool.and_eq_true, Bool.or_eq_true, beq_iff_eq, decide_eq_true_eq]
    rintro ⟨⟨rfl, hlo, hhi⟩, hlogw⟩
    by_cases hopc : opc = 0x02
    · subst hopc
      exact ⟨decodeD64 logw, (decodeD64_fields logw).symm⟩
    · obtain rfl := hlogw.resolve_left hopc
      obtain ⟨i, hi⟩ := exists_decodeOpc hopc hlo hhi
      exact ⟨i, (fields_of_decodeOpc hi).symm⟩
  · rintro ⟨i, rfl⟩
    cases i <;> rfl

/-! ### The decoder on words -/

/-- A word decodes to a command exactly when it is that command's encoding. -/
theorem decode_eq_ok_iff {c : Word} {i : Instr} : decode c = .ok i ↔ encode i = c := by
  rw [decode, decodeFields_eq_ok_iff, fieldsOf_eq_fields_iff]

/-- The chain of R95 on `c[31:10]`, `c[7:0]` and `c[9:8]` read as numbers. -/
theorem decode_toOption (c : Word) :
    (decode c).toOption =
      if c.toNat / 2 ^ 10 ≠ 0 then none
      else if c.toNat % 256 = 0x02 then some (decodeD64 (fieldsOf c).logw)
      else if c.toNat / 256 % 4 ≠ 0 then none
      else decodeOpc (fieldsOf c).opc := by
  rw [decode, decodeFields_toOption]
  simp only [ne_eq, ← BitVec.toNat_inj, fieldsOf_rsv_toNat, fieldsOf_logw_toNat, fieldsOf_opc_toNat]
  rfl

/-! ### The statements -/

/-- Settles O3: a word decodes to a command exactly when it is its encoding, and the fields of the encodings are the
well-formed ones. -/
theorem decodeAndEncodeAgree : Obligations.DecodeAndEncodeAgree := by
  refine ⟨fun i _ => decode_eq_ok_iff.mpr rfl, fun w i h => decode_eq_ok_iff.mp h, fun w => ?_⟩
  simp only [decode, decodeFields_eq_ok_iff, wellFormed_iff_exists_fields]

/-- Settles O2: the rows of the opcode map are the commands with their encodings. -/
theorem theTenCommandWordsAreTheOnlyLegalCommands : Obligations.TheTenCommandWordsAreTheOnlyLegalCommands := by
  intro w i
  rw [decode_eq_ok_iff, eq_comm]
  cases i <;> simp [encode, Instr.logw, Instr.opc]

/-- Settles O4: the decoder's tests on the fields are the rule's tests on the number, and an illegal word raises its
code. -/
theorem decodingFollowsTheRulesChain : Obligations.DecodingFollowsTheRulesChain := by
  constructor
  · intro c
    rw [decode_toOption]
    simp only [decodeD64, decodeOpc, ← BitVec.toNat_inj, fieldsOf_logw_toNat, fieldsOf_opc_toNat, apply_ite some]
    rfl
  · intro s k x c hx hc
    cases hd : decode c with
    | ok i => cases hc.symm.trans (toOption_eq_some_iff.mpr hd)
    | error r => exact issue_of_illegal hd hx

/-- Settles O1: each word written out is the encoding of its command. -/
theorem commandWordsWrittenOutDecode : Obligations.CommandWordsWrittenOutDecode := by
  simp only [Obligations.CommandWordsWrittenOutDecode, decode_eq_ok_iff]
  decide

end Sys2Proof
end

section
/-! PROOF. The statements of the family of the primitives and ROMs: the word operators and the sigma functions by their
arithmetic and bit by bit (spec 40_primitives_rom.md R120 to R129), and the word-expansion ROM (R141). -/

namespace Sys2Proof.Machine

/-! ### Rotation and shift (R122, R123) -/

/-- For the amounts of R122, `ROTR` is the library's rotation. -/
theorem rotr_eq_rotateRight {n : Nat} (hn : n < 32) (x : Word) : rotr n x = x.rotateRight n := by
  rw [BitVec.rotateRight_def, Nat.mod_eq_of_lt hn, rotr]

theorem rotr_toNat {n : Nat} (hn : n < 32) (x : Word) :
    (rotr n x).toNat = (x.toNat / 2 ^ n) ||| (x.toNat * 2 ^ (32 - n) % 2 ^ 32) := by
  rw [rotr_eq_rotateRight hn, BitVec.toNat_rotateRight, Nat.mod_eq_of_lt hn, Nat.shiftRight_eq_div_pow,
    Nat.shiftLeft_eq]

/-- Bit `i` comes from bit `i + n`, which wraps around past bit 31. -/
theorem rotr_getLsbD {n i : Nat} (hn : n < 32) (hi : i < 32) (x : Word) :
    (rotr n x).getLsbD i = x.getLsbD ((i + n) % 32) := by
  rw [rotr_eq_rotateRight hn, BitVec.getLsbD_rotateRight, Nat.mod_eq_of_lt hn]
  by_cases h : i < 32 - n
  · rw [decide_eq_true h, cond_true, show (i + n) % 32 = n + i by omega]
  · rw [decide_eq_false h, cond_false, decide_eq_true hi, Bool.true_and, show (i + n) % 32 = i - (32 - n) by omega]

theorem shr_toNat (n : Nat) (x : Word) : (shr n x).toNat = x.toNat / 2 ^ n := by
  rw [shr, BitVec.toNat_ushiftRight, Nat.shiftRight_eq_div_pow]

/-- Bit `i` comes from bit `i + n` where the word has one, and is 0 elsewhere. -/
theorem shr_getLsbD (n i : Nat) (x : Word) :
    (shr n x).getLsbD i = (decide (i + n < 32) && x.getLsbD ((i + n) % 32)) := by
  rw [shr, BitVec.getLsbD_ushiftRight, Nat.add_comm n i]
  by_cases h : i + n < 32
  · rw [Nat.mod_eq_of_lt h, decide_eq_true h, Bool.true_and]
  · rw [decide_eq_false h, Bool.false_and, BitVec.getLsbD_of_ge x _ (Nat.le_of_not_lt h)]

theorem shr_getLsbD_top {n i : Nat} (hi : 32 - n ≤ i) (x : Word) : (shr n x).getLsbD i = false := by
  rw [shr_getLsbD, decide_eq_false (by omega), Bool.false_and]

/-! ### Choice and majority (R124, R125) -/

theorem ch_getLsbD {i : Nat} (hi : i < 32) (x y z : Word) :
    (ch x y z).getLsbD i = if x.getLsbD i then y.getLsbD i else z.getLsbD i := by
  rw [ch, BitVec.getLsbD_xor, BitVec.getLsbD_and, BitVec.getLsbD_and, BitVec.getLsbD_not, decide_eq_true hi]
  cases x.getLsbD i <;> simp

theorem maj_getLsbD (x y z : Word) (i : Nat) :
    (maj x y z).getLsbD i =
      ((x.getLsbD i && y.getLsbD i) || (x.getLsbD i && z.getLsbD i) || (y.getLsbD i && z.getLsbD i)) := by
  rw [maj, BitVec.getLsbD_xor, BitVec.getLsbD_xor, BitVec.getLsbD_and, BitVec.getLsbD_and, BitVec.getLsbD_and]
  cases x.getLsbD i <;> cases y.getLsbD i <;> cases z.getLsbD i <;> rfl

theorem ch_eq_xor_and (x y z : Word) : ch x y z = z ^^^ (x &&& (y ^^^ z)) := by
  refine BitVec.eq_of_getLsbD_eq fun i hi => ?_
  rw [ch_getLsbD hi, BitVec.getLsbD_xor, BitVec.getLsbD_and, BitVec.getLsbD_xor]
  cases x.getLsbD i <;> cases y.getLsbD i <;> cases z.getLsbD i <;> rfl

theorem maj_eq_or_and (x y z : Word) : maj x y z = (x &&& y) ||| (z &&& (x ||| y)) := by
  refine BitVec.eq_of_getLsbD_eq fun i _ => ?_
  rw [maj_getLsbD, BitVec.getLsbD_or, BitVec.getLsbD_and, BitVec.getLsbD_and, BitVec.getLsbD_or]
  cases x.getLsbD i <;> cases y.getLsbD i <;> cases z.getLsbD i <;> rfl

/-! ### The sigma functions (R126 to R129) -/

/-- A capital sigma, three rotations summed bit by bit. -/
theorem rotr_xor_rotr_xor_rotr_getLsbD {p q r i : Nat} (hp : p < 32) (hq : q < 32) (hr : r < 32) (hi : i < 32)
    (x : Word) :
    (rotr p x ^^^ rotr q x ^^^ rotr r x).getLsbD i =
      (x.getLsbD ((i + p) % 32) ^^ x.getLsbD ((i + q) % 32) ^^ x.getLsbD ((i + r) % 32)) := by
  rw [BitVec.getLsbD_xor, BitVec.getLsbD_xor, rotr_getLsbD hp hi, rotr_getLsbD hq hi, rotr_getLsbD hr hi]

/-- A small sigma, two rotations and a shift. -/
theorem rotr_xor_rotr_xor_shr_getLsbD {p q i : Nat} (hp : p < 32) (hq : q < 32) (r : Nat) (hi : i < 32) (x : Word) :
    (rotr p x ^^^ rotr q x ^^^ shr r x).getLsbD i =
      (x.getLsbD ((i + p) % 32) ^^ x.getLsbD ((i + q) % 32) ^^ (decide (i + r < 32) && x.getLsbD ((i + r) % 32))) := by
  rw [BitVec.getLsbD_xor, BitVec.getLsbD_xor, rotr_getLsbD hp hi, rotr_getLsbD hq hi, shr_getLsbD]

/-- Settles O30: each clause by the lemma about its operator, the rules' examples by evaluation. -/
theorem wordOperatorsMatchTheirRules : Obligations.WordOperatorsMatchTheirRules := by
  refine ⟨fun x y z => ⟨BitVec.toNat_add x y, BitVec.add_comm x y, BitVec.add_assoc x y z⟩,
    fun n x _ hn =>
      ⟨rotr_toNat hn x, fun i hi => rotr_getLsbD hn hi x, shr_toNat n x, fun i hi => shr_getLsbD_top hi x⟩,
    fun x y z i hi => ⟨ch_getLsbD hi x y z, maj_getLsbD x y z i⟩,
    fun x y z => ⟨rfl, ch_eq_xor_and x y z, rfl, maj_eq_or_and x y z⟩,
    fun x => ⟨rfl, rfl, rfl, rfl⟩,
    fun x i hi => ⟨?bigSigma0, ?bigSigma1, ?smallSigma0, ?smallSigma1⟩,
    by decide, by decide, by decide, by decide⟩
  case bigSigma0 => exact rotr_xor_rotr_xor_rotr_getLsbD (by decide) (by decide) (by decide) hi x
  case bigSigma1 => exact rotr_xor_rotr_xor_rotr_getLsbD (by decide) (by decide) (by decide) hi x
  case smallSigma0 => exact rotr_xor_rotr_xor_shr_getLsbD (by decide) (by decide) 3 hi x
  case smallSigma1 => exact rotr_xor_rotr_xor_shr_getLsbD (by decide) (by decide) 10 hi x

/-! ### The word-expansion ROM (R141) -/

/-- The schedule of a block given as words starts from those words, with no detour through its bytes (R150). -/
theorem schedule_encWords (ws : List Word) : schedule (encWords ws) = extendSchedule 48 ws := by
  rw [schedule, words_encWords]

/-- The recurrence of R151 from the sixteen words of `PADA` gives the words the spec prints. -/
theorem extendSchedule_PADA : extendSchedule 48 Rom.PADA = Rom.WXA := by decide +kernel

theorem schedule_PADA : schedule (encWords Rom.PADA) = Rom.WXA :=
  (schedule_encWords Rom.PADA).trans extendSchedule_PADA

/-- Settles O34: the schedule of `PADA` is the ROM, so compressing over the ROM is compressing the block. -/
theorem wordExpansionRomIsTheScheduleOfPada : Obligations.WordExpansionRomIsTheScheduleOfPada :=
  ⟨schedule_PADA, by decide, fun s => by rw [compress, schedule_PADA]⟩

end Sys2Proof.Machine
end

section
/-! PROOF. The statement of the family of the message schedule (spec 41_message_schedule.md R150, R151): the words a block
loads, what an extension of the schedule keeps and adds, and the block of zeros. -/

namespace Sys2Proof.Machine

/-! ### Block load (R150) -/

theorem words_length : ∀ b : List Byte, (words b).length = b.length / 4
  | [] | [_] | [_, _] | [_, _, _] => by simp [words]
  | _ :: _ :: _ :: _ :: rest => by
    simp only [words, List.length_cons, words_length rest]
    omega

/-- Word `j` is the big-endian word of bytes `4 j` to `4 j + 3`. -/
theorem words_getElem? {b : List Byte} {j : Nat} (hj : j < (words b).length) :
    (words b)[j]? =
      some (be32 (b.getD (4 * j) 0) (b.getD (4 * j + 1) 0) (b.getD (4 * j + 2) 0) (b.getD (4 * j + 3) 0)) := by
  induction b using words.induct generalizing j with
  | case1 b₀ b₁ b₂ b₃ rest ih =>
    cases j with
    | zero => rfl
    | succ j => exact ih (Nat.lt_of_succ_lt_succ hj)
  | case2 b hshort => simp [words.eq_2 b hshort] at hj

theorem words_replicate_zero (n : Nat) : words (List.replicate (4 * n) 0) = List.replicate n 0 := by
  induction n with
  | zero => rfl
  | succ n ih => exact congrArg (List.cons 0) ih

/-! ### Extension by the recurrence (R151) -/

theorem extendSchedule_length (n : Nat) (w : List Word) : (extendSchedule n w).length = w.length + n := by
  induction n generalizing w with
  | zero => rfl
  | succ n ih =>
    rw [extendSchedule, ih, List.length_append, List.length_singleton]
    omega

/-- Further words come after the words so far, which stay as they are. -/
theorem prefix_extendSchedule (n : Nat) (w : List Word) : w <+: extendSchedule n w := by
  induction n generalizing w with
  | zero => exact List.prefix_rfl
  | succ n ih => exact (List.prefix_append w _).trans (ih _)

/-- Each further word is the next word after all the words before it. -/
theorem extendSchedule_getElem? {n t : Nat} {w : List Word} (hlo : w.length ≤ t) (hhi : t < w.length + n) :
    (extendSchedule n w)[t]? = some (scheduleWord ((extendSchedule n w).take t)) := by
  induction n generalizing w with
  | zero => omega
  | succ n ih =>
    rw [extendSchedule]
    rcases Nat.eq_or_lt_of_le hlo with rfl | hlt
    · obtain ⟨more, hmore⟩ := prefix_extendSchedule n (w ++ [scheduleWord w])
      rw [← hmore, List.append_assoc, List.take_left, List.getElem?_append_right (Nat.le_refl _), Nat.sub_self]
      rfl
    · refine ih ?_ ?_ <;> rw [List.length_append, List.length_singleton] <;> omega

/-- After the first `t` of the words `w`, the next word comes from the words at the distances 2, 7, 15 and 16. -/
theorem scheduleWord_take {w : List Word} {t : Nat} (hlo : 16 ≤ t) (hhi : t ≤ w.length) :
    scheduleWord (w.take t) =
      add32 (add32 (add32 (smallSigma1 (w.getD (t - 2) 0)) (w.getD (t - 7) 0))
        (smallSigma0 (w.getD (t - 15) 0))) (w.getD (t - 16) 0) := by
  have hget : ∀ d, 0 < d → (w.take t).getD (t - d) 0 = w.getD (t - d) 0 := fun d hd => by
    rw [List.getD_eq_getElem?_getD, List.getD_eq_getElem?_getD, List.getElem?_take_of_lt (by omega)]
  rw [scheduleWord, List.length_take_of_le hhi, hget 2 (by decide), hget 7 (by decide), hget 15 (by decide),
    hget 16 (by decide)]

/-- After words that are all 0 the next word is 0, since the two small sigmas map 0 to 0. -/
theorem scheduleWord_replicate_zero (m : Nat) : scheduleWord (List.replicate m 0) = 0 := by
  have hget : ∀ i, (List.replicate m (0 : Word)).getD i 0 = 0 := fun i => by
    rw [List.getD_eq_getElem?_getD, List.getElem?_replicate]
    split <;> rfl
  simp only [scheduleWord, hget]
  decide

theorem extendSchedule_replicate_zero (n m : Nat) :
    extendSchedule n (List.replicate m 0) = List.replicate (m + n) 0 := by
  induction n generalizing m with
  | zero => rfl
  | succ n ih =>
    rw [extendSchedule, scheduleWord_replicate_zero, ← List.replicate_succ', ih, Nat.succ_add_eq_add_succ]

/-! ### The schedule of a block -/

theorem words_block_length {b : List Byte} (hb : b.length = 64) : (words b).length = 16 := by
  rw [words_length, hb]

theorem schedule_length {b : List Byte} (hb : b.length = 64) : (schedule b).length = 64 := by
  rw [schedule, extendSchedule_length, words_block_length hb]

/-- The schedule starts with the block's own words. -/
theorem schedule_getElem?_of_lt {b : List Byte} {j : Nat} (hj : j < (words b).length) :
    (schedule b)[j]? = (words b)[j]? := by
  obtain ⟨more, hmore⟩ := prefix_extendSchedule 48 (words b)
  rw [schedule, ← hmore, List.getElem?_append_left hj]

theorem schedule_getElem?_of_ge {b : List Byte} {t : Nat} (hb : b.length = 64) (hlo : 16 ≤ t) (hhi : t < 64) :
    (schedule b)[t]? = some (scheduleWord ((schedule b).take t)) :=
  extendSchedule_getElem? (by rwa [words_block_length hb]) (by rwa [words_block_length hb])

/-- The corner case of R151: a block of zeros gives 64 zero words. -/
theorem schedule_zero : schedule (List.replicate 64 0) = List.replicate 64 0 := by
  rw [schedule, words_replicate_zero 16, extendSchedule_replicate_zero]

/-- Settles O31: words 0 to 15 by the block load, the others by the recurrence, the block of bytes `0xff` by
evaluation. -/
theorem scheduleFollowsTheRecurrence : Obligations.ScheduleFollowsTheRecurrence := by
  refine ⟨fun b hb => ⟨schedule_length hb, fun j hj => ?own, fun t hlo hhi => ?further⟩, schedule_zero,
    by decide +kernel⟩
  case own =>
    have hj : j < (words b).length := by rwa [words_block_length hb]
    rw [schedule_getElem?_of_lt hj, words_getElem? hj]
  case further =>
    rw [schedule_getElem?_of_ge hb hlo hhi, scheduleWord_take hlo (by rw [schedule_length hb]; omega)]

end Sys2Proof.Machine
end

section
/-! PROOF. The statements of the compression family (spec 42_compression.md): the sixty-four rounds (R165), the adder
trees of a round (R163), and what TRANSFORM does to its blocks (R170 to R172). -/

namespace Sys2Proof.Machine

/-! ### The rounds (R162, R165) -/

/-- The rounds, one for each entry of two equally long lists, are those of the entries' numbers in order. -/
theorem rounds_eq_foldl {ks ws : List Word} (hlen : ks.length = ws.length) (v : HashState) :
    rounds v ks ws = (List.range ks.length).foldl (fun v t => round v (ks.getD t 0) (ws.getD t 0)) v := by
  induction ks generalizing v ws with
  | nil => rfl
  | cons k ks ih =>
    cases ws with
    | nil => cases hlen
    | cons w ws =>
      rw [rounds, ih (Nat.succ.inj hlen), List.length_cons, List.range_succ_eq_map, List.foldl_cons, List.foldl_map]
      rfl

/-- Rounds 0 to 63 over the schedule of a block take the entries of `K` and the schedule words one by one. -/
theorem rounds_schedule {b : List Byte} (hb : b.length = 64) (s : HashState) :
    rounds s Rom.K (schedule b) =
      (List.range 64).foldl (fun v t => round v (Rom.K.getD t 0) ((schedule b).getD t 0)) s :=
  have hlen : Rom.K.length = (schedule b).length := (schedule_length hb).symm
  rounds_eq_foldl hlen s

/-- A block of zeros is compressed over a schedule of zeros. -/
theorem compress_zero (s : HashState) :
    compress s (List.replicate 64 0) = compressSchedule s (List.replicate 64 0) := by
  rw [compress, schedule_zero]

/-- Settles O32: the rounds over `K` and the schedule are a fold over the round numbers; the two examples are evaluated
over a schedule of zeros. -/
theorem compressIsSixtyFourRoundsAndFeedForward : Obligations.CompressIsSixtyFourRoundsAndFeedForward := by
  refine ⟨fun s b hb => ?rounds, ?fromIV, ?fromZero⟩
  case rounds =>
    rw [compress, compressSchedule, rounds_schedule hb]
    rfl
  case fromIV =>
    rw [compress_zero]
    decide +kernel
  case fromZero =>
    rw [compress_zero]
    decide +kernel

/-! ### The adder trees of a round (R163) -/

theorem add32_assoc (x y z : Word) : add32 (add32 x y) z = add32 x (add32 y z) := BitVec.add_assoc x y z

/-- A round with `T1` given: `a` may be formed as `(T1 + Sigma0(a)) + Maj(a, b, c)` (R163 e). -/
theorem round_eq_of_t1 {v : HashState} {k w t1 : Word}
    (ht1 : t1 = add32 (add32 (add32 (add32 v.h (bigSigma1 v.e)) (ch v.e v.f v.g)) k) w) :
    round v k w =
      { a := add32 (add32 t1 (bigSigma0 v.a)) (maj v.a v.b v.c), b := v.a, c := v.b, d := v.c,
        e := add32 v.d t1, f := v.e, g := v.f, h := v.g } := by
  rw [ht1, add32_assoc _ (bigSigma0 v.a)]
  rfl

/-- The balanced tree: five terms in order may be added as the first and the last two, and then the middle two. -/
theorem add32_balanced (h σ c k w : Word) :
    add32 (add32 (add32 h k) w) (add32 σ c) = add32 (add32 (add32 (add32 h σ) c) k) w := by
  unfold add32
  ac_rfl

/-- Settles O33: both trees form the rule's `T1`, `+32` being associative and commutative. -/
theorem adderTreesComputeTheRound : Obligations.AdderTreesComputeTheRound := by
  rintro v k w balanced preAdded t1 (rfl | rfl)
  · exact round_eq_of_t1 (add32_balanced ..)
  · exact round_eq_of_t1 (add32_assoc _ k w).symm

/-! ### Blocks of the data space (R170) -/

/-- The blocks of a buffer are compressed by compressing the first `n` and then the `m` that begin `64 n` further. -/
theorem compressBlocks_readBytes_add (M : Memory) (addr n m : Nat) (s : HashState) :
    compressBlocks (n + m) s (M.readBytes addr (64 * (n + m))) =
      compressBlocks m (compressBlocks n s (M.readBytes addr (64 * n))) (M.readBytes (addr + 64 * n) (64 * m)) := by
  rw [Nat.mul_add, Memory.readBytes_add, compressBlocks_add, List.drop_left' (Memory.readBytes_length ..),
    compressBlocks_append _ _ _ _ (Memory.readBytes_length ..).ge]

theorem compressBlocks_one {s : HashState} {block : List Byte} (h : block.length = 64) :
    compressBlocks 1 s block = compress s block := by
  rw [compressBlocks, compressBlocks, List.take_of_length_le h.le]

/-- Compressing a buffer of `n` blocks is `Compress` folded over the blocks at `addr + 64 i`. -/
theorem compressBlocks_readBytes (M : Memory) (addr n : Nat) (s : HashState) :
    compressBlocks n s (M.readBytes addr (64 * n)) =
      (List.range n).foldl (fun st i => compress st (M.readBytes (addr + 64 * i) 64)) s := by
  induction n with
  | zero => rfl
  | succ n ih =>
    rw [compressBlocks_readBytes_add, ih, compressBlocks_one (Memory.readBytes_length ..), List.range_succ,
      List.foldl_append]
    rfl

/-! ### TRANSFORM (R170 to R172) -/

/-- An instance after a TRANSFORM of its source buffer in the data space `M` completes. -/
def Instance.transformed (x : Instance) (M : Memory) : Instance :=
  { x with h := compressBlocks x.cnt x.h (M.readBytes x.srcAddr (64 * x.cnt)), err := .ok }

/-- TRANSFORM completes on a ready engine with the length it requires and an admitted source buffer. -/
theorem exec_transform {s : State} {x : Instance} (hx : s.current = some x) (hr : s.Ready)
    (hlen : x.srcLen = 64 * x.cnt) (hsrc : Admitted s.params x.src) :
    exec .transform s = .next (s.put (x.transformed s.mem)) := by
  have hpass : firstFault (checksOf .transform s x) = none := by
    simpa [checksOf, transformChecks, readyChecks_pass hr, hlen] using bufferChecks_pass hsrc []
  rw [exec_completes hx hpass, effectOf, transformEffect, State.commit, Instance.transformed, hlen]

theorem State.current_put {s : State} {x : Instance} (hx : s.current = some x) (y : Instance) :
    (s.put y).current = some y :=
  current_of_set hx rfl rfl

theorem State.Ready.put {s : State} (hr : s.Ready) (y : Instance) : (s.put y).Ready := ⟨hr.valid, hr.alive⟩

/-- TRANSFORM after the host has replaced the registers of the current instance by `y`. -/
theorem exec_transform_put {s : State} {x y : Instance} (hx : s.current = some x) (hr : s.Ready)
    (hlen : y.srcLen = 64 * y.cnt) (hsrc : Admitted s.params y.src) :
    exec .transform (s.put y) = .next (s.put (y.transformed s.mem)) :=
  (exec_transform (State.current_put hx y) (hr.put y) hlen hsrc).trans (by rw [State.put_put, State.put_mem])

/-- A buffer inside an admitted one is admitted. -/
theorem Admitted.sub {p : Params} {b c : Buffer} (h : Admitted p b) (hlo : b.addr ≤ c.addr)
    (hhi : c.addr + c.len ≤ b.addr + b.len) : Admitted p c :=
  ⟨hhi.trans h.inside, fun a ha hb => h.mapped_all a (hlo.trans ha) (hb.trans_le hhi)⟩

/-- Settles O35: TRANSFORM completes, and compressing the source buffer is the fold over its blocks. -/
theorem transformCompressesItsBlocks : Obligations.TransformCompressesItsBlocks := by
  intro s x hx hr hlen hsrc
  rw [exec_transform hx hr hlen hsrc, Instance.transformed, compressBlocks_readBytes]

/-- Settles O36: the three TRANSFORMs complete, their source buffers being parts of the admitted one, and the blocks of
the whole buffer are those of its two parts. -/
theorem transformIsCumulative : Obligations.TransformIsCumulative := by
  intro s x n m hx hr hall
  have hfirst : Admitted s.params ⟨x.srcAddr, 64 * n⟩ := hall.sub (Nat.le_refl _) (by dsimp only; omega)
  have hrest : Admitted s.params ⟨x.srcAddr + 64 * n, 64 * m⟩ :=
    hall.sub (Nat.le_add_right ..) (by dsimp only; omega)
  have hcur := State.current_put hx
  exact ⟨_, _, _, _, _, _, exec_transform_put hx hr rfl hall, hcur _, exec_transform_put hx hr rfl hfirst, hcur _,
    exec_transform_put (hcur _) (hr.put _) rfl hrest, State.current_put (hcur _) _, rfl, rfl, rfl,
    (compressBlocks_readBytes_add s.mem x.srcAddr n m x.h).symm⟩

end Sys2Proof.Machine
end

section
/-! PROOF. The statements of the double-hash family (spec 43_d64.md): what a D64-type command stores (R185 to R190), and
the three compressions of `D64fn` (R182). -/

namespace Sys2Proof.Machine

/-! ### The D64-type commands (R185 to R190) -/

/-- A command of a batch width is the D64-type command of that width (R93). -/
theorem exec_of_batchWidth {i : Instr} {n : Nat} (hi : batchWidth i = some n) (s : State) :
    exec i s = d64Command n s := by
  cases i with
  | d64 | d64Way2 | d64Way4 | d64Way8 => cases hi; rfl
  | transform | dispatch | hReset | hWrite | hFinalize | sha256d64 => cases hi

/-- The checks of R187 pass on a ready engine with the width installed, the lengths the width requires, and admitted
disjoint buffers. -/
theorem d64Checks_pass {n : Nat} {s : State} {x : Instance} (hr : s.Ready) (hn : s.cfg.installed n = true)
    (hsrcLen : x.srcLen = 64 * n) (hdstLen : x.dstLen = 32 * n) (hsrc : Admitted s.params x.src)
    (hdst : Admitted s.params x.dst) (hd : Disjoint x.src x.dst) : firstFault (d64Checks n s x) = none := by
  rw [d64Checks, List.append_assoc, readyChecks_pass hr]
  simpa [hn, hsrcLen, hdstLen] using twoBufferChecks_pass hsrc hdst hd

/-- The lanes' blocks of a buffer of the data space are the 64 bytes at `addr + 64 l` (R152). -/
theorem laneBlocks_readBytes (m : Memory) (addr n : Nat) :
    laneBlocks n (m.readBytes addr (64 * n)) = (List.range n).map fun l => m.readBytes (addr + 64 * l) 64 := by
  refine List.ext_getElem (by simp) fun l hl _ => ?_
  rw [laneBlocks_length] at hl
  rw [laneBlocks_getElem, Memory.readBytes_slice _ _ (by omega), List.getElem_map, List.getElem_range]

/-- A lane group over a buffer of the data space computes `D64fn` of each lane's block, in lane order (R187). -/
theorem laneGroup_readBytes (m : Memory) (addr n : Nat) :
    laneGroup n (m.readBytes addr (64 * n)) =
      (List.range n).flatMap fun l => d64fn (m.readBytes (addr + 64 * l) 64) := by
  rw [laneGroup_eq, laneBlocks_readBytes, List.flatMap_map]

/-- Settles O37: the checks pass, and the lane group stored is `D64fn` lane by lane. -/
theorem d64CommandsStoreEachLanesDoubleHash : Obligations.D64CommandsStoreEachLanesDoubleHash := by
  intro i n s x hi hx hr hn hsrcLen hdstLen hsrc hdst hd
  have widths : ∀ c ∈ [(Instr.d64, 1), (.d64Way2, 2), (.d64Way4, 4), (.d64Way8, 8)], batchWidth c.1 = some c.2 := by
    decide
  rw [exec_of_batchWidth (widths (i, n) hi), d64Command, State.onCurrent_some hx,
    State.guarded_none (d64Checks_pass hr hn hsrcLen hdstLen hsrc hdst hd), d64Effect, State.commit,
    laneGroup_readBytes]

/-! ### The three compressions (R182) -/

/-- The block of the third stage holds the words of the intermediate digest and then `PADB`. -/
theorem words_digest_append (s : HashState) (ws : List Word) : words (digest s ++ encWords ws) = s.toList ++ ws := by
  rw [digest, encWords, encWords, ← List.flatMap_append]
  exact words_encWords _

/-- Settles O38: `D64fn` unfolds to its three stages, block load undoes `enc32`, and the paddings are evaluated. -/
theorem d64fnIsThreeCompressions : Obligations.D64fnIsThreeCompressions :=
  fun x _ => ⟨rfl, d64fn_length x, words_digest_append _ _, by decide, by decide⟩

end Sys2Proof.Machine
end

section
/-! PROOF. The statements of the dispatch family (spec 44_dispatch_selftest.md): what DISPATCH selects (R201), publishes
and hands over (R200, R202 to R204), and what the known-answer checks look at (R206). -/

namespace Sys2Proof.Machine

/-! ### The selected table (R201) -/

/-- Each slot is filled on its own, by its fastest satisfied candidate (R201, R209). -/
theorem tableSlot_selectTable (p : Params) (slot : Slot) :
    tableSlot (selectTable p) slot = (fastest (eligible p slot)).map (·.id) := by
  cases slot <;> rfl

theorem tableSlot_isSome_iff_available (p : Params) (slot : Slot) :
    (tableSlot (selectTable p) slot).isSome = true ↔ Available p slot := by
  rw [tableSlot_selectTable, Option.isSome_map]
  exact fastest_eligible_isSome p slot

/-- Settles O45: the chosen candidate is an eligible one and none is faster; the mandatory slots have a candidate that
is always satisfied. -/
theorem selectionTakesTheFastestSatisfiedCandidate : Obligations.SelectionTakesTheFastestSatisfiedCandidate := by
  refine ⟨fun p slot => ⟨?empty, fun id hid => ?filled⟩, fun p hp => ?mandatory⟩
  case empty =>
    rw [← tableSlot_isSome_iff_available, Option.not_isSome_iff_eq_none]
  case filled =>
    rw [tableSlot_selectTable, Option.map_eq_some_iff] at hid
    obtain ⟨c, hc, hcid⟩ := hid
    obtain ⟨hmem, hfastest⟩ := fastest_spec hc
    obtain ⟨hcand, hslot, hreq⟩ := mem_eligible.mp hmem
    exact ⟨c, hcand, hcid, hslot, hreq, fun d hd hds hdr => hfastest d (mem_eligible.mpr ⟨hd, hds, hdr⟩)⟩
  case mandatory =>
    obtain ⟨hcore, hscalar⟩ := selectTable_mandatory hp
    exact ⟨Option.ne_none_iff_isSome.mpr hcore, Option.ne_none_iff_isSome.mpr hscalar⟩

/-! ### DISPATCH (R200, R202 to R204) -/

/-- DISPATCH faults neither when a table is published nor when its Self-Test passes. -/
theorem dispatchChecks_pass {s : State} (x : Instance) (hd : s.cfg.dead = false)
    (h : s.cfg.valid = true ∨ s.params.selftestOk = true) : firstFault (checksOf .dispatch s x) = none := by
  rcases h with h | h <;> simp [checksOf, dispatchChecks, selfTest, hd, h]

/-- Settles O42: the checks pass and the effect is the first one, whose width bits say which slots are filled. -/
theorem firstDispatchPublishesTheTable : Obligations.FirstDispatchPublishesTheTable := by
  intro s x hx hd hv hok
  refine ⟨publishedCfg (selectTable s.params), ?_, rfl, rfl, rfl, tableSlot_isSome_iff_available _ .d64x2,
    tableSlot_isSome_iff_available _ .d64x4, tableSlot_isSome_iff_available _ .d64x8⟩
  rw [exec_completes hx (dispatchChecks_pass x hd (.inr hok)), effectOf, dispatchEffect_of_not_valid x hv, State.commit]

/-- Settles O43: with a table published the effect is the repeated one; a dead engine fails the first check. -/
theorem repeatedDispatchIsANoOp : Obligations.RepeatedDispatchIsANoOp := by
  refine fun s x hx => ⟨fun hd hv => ⟨.summary s.sel s.abt, ?_, rfl⟩, fun hd => ?_⟩
  · rw [exec_completes hx (dispatchChecks_pass x hd (.inl hv)), effectOf, dispatchEffect_of_valid x hv, State.commit]
  · have hfault : firstFault (checksOf .dispatch s x) = some .dead := by simp [checksOf, dispatchChecks, hd]
    rw [exec_raises hx hfault, State.raise_eq_put s x (by decide)]

/-! ### The known-answer checks (R206) -/

/-- The batch widths above 1, each beside its slot of the table (R206). -/
def wideSlots : List (Nat × Slot) := [(2, .d64x2), (4, .d64x4), (8, .d64x8)]

theorem width_of_mem_wideSlots {n : Nat} {slot : Slot} (h : (n, slot) ∈ wideSlots) : n ∈ [2, 4, 8] :=
  List.mem_map_of_mem (f := Prod.fst) h

/-- The backends `b` of the table `t` answer the inputs that R206 tests as the spec's functions do. -/
structure KnownAnswers (text : List Byte) (t : BackendTable) (b : Backends) : Prop where
  core : ∀ i, i ≤ 8 → b.core Rom.IV text i = compressBlocks i Rom.IV text
  scalar : b.d64 1 (text.take 64) = d64fn (text.take 64)
  wide : ∀ n slot, (n, slot) ∈ wideSlots → tableSlot t slot ≠ none →
    b.d64 n (List.replicate n (text.take 64)).flatten = (List.replicate n (d64fn (text.take 64))).flatten

theorem knownAnswerTest_iff (text : List Byte) (t : BackendTable) (b : Backends) :
    knownAnswerTest text t b = true ↔ KnownAnswers text t b := by
  have hslots : [(2, t.d64x2), (4, t.d64x4), (8, t.d64x8)] = wideSlots.map fun w => (w.1, tableSlot t w.2) := rfl
  simp only [knownAnswerTest, hslots, List.all_map, Function.comp_def, List.all_eq_true, List.mem_range,
    Nat.lt_succ_iff, Bool.and_eq_true, Bool.or_eq_true, Option.isNone_iff_eq_none, or_iff_not_imp_left, beq_iff_eq,
    Prod.forall, ← compressBlocks_eq_selfTestRef, selfTestDigest]
  exact ⟨fun ⟨⟨hcore, hscalar⟩, hwide⟩ => ⟨hcore, hscalar, hwide⟩, fun h => ⟨⟨h.core, h.scalar⟩, h.wide⟩⟩

theorem knownAnswerTest_eq_false {text : List Byte} {t : BackendTable} {b : Backends}
    (h : ¬KnownAnswers text t b) : knownAnswerTest text t b = false :=
  Bool.eq_false_iff.mpr (mt (knownAnswerTest_iff text t b).mp h)

/-- Copies of one block are the blocks of a lane group. -/
theorem laneBlocks_flatten_replicate {block : List Byte} (h : block.length = 64) (n : Nat) :
    laneBlocks n (List.replicate n block).flatten = List.replicate n block := by
  induction n with
  | zero => rfl
  | succ n ih =>
    rw [List.replicate_succ, List.flatten_cons, laneBlocks, List.take_left' h, List.drop_left' h, ih]

theorem laneGroup_flatten_replicate {block : List Byte} (h : block.length = 64) (n : Nat) :
    laneGroup n (List.replicate n block).flatten = (List.replicate n (d64fn block)).flatten := by
  rw [laneGroup_eq, laneBlocks_flatten_replicate h, List.flatMap_replicate]

/-- The spec's functions answer every tested input (R207). -/
theorem faithful_knownAnswers {text : List Byte} (h : text.length = 640) (t : BackendTable) :
    KnownAnswers text t Backends.faithful where
  core _ _ := rfl
  scalar := by
    have hblock : (text.take 64).length = 64 := by simp [h]
    simpa [Backends.faithful] using laneGroup_flatten_replicate hblock 1
  wide n _ _ _ := laneGroup_flatten_replicate (by simp [h]) n

/-- Only the answers on the tested inputs count. -/
theorem KnownAnswers.congr {text : List Byte} {t : BackendTable} {b c : Backends} (h : KnownAnswers text t b)
    (hcore : ∀ i, i ≤ 8 → b.core Rom.IV text i = c.core Rom.IV text i)
    (hscalar : b.d64 1 (text.take 64) = c.d64 1 (text.take 64))
    (hwide : ∀ n ∈ [2, 4, 8], b.d64 n (List.replicate n (text.take 64)).flatten =
      c.d64 n (List.replicate n (text.take 64)).flatten) : KnownAnswers text t c where
  core i hi := (hcore i hi).symm.trans (h.core i hi)
  scalar := hscalar.symm.trans h.scalar
  wide n slot hn hslot := (hwide n (width_of_mem_wideSlots hn)).symm.trans (h.wide n slot hn hslot)

/-- Settles O46: the checks are `KnownAnswers`, which the spec's functions have, each wrong answer contradicts, and
backends that agree on the tested inputs share. -/
theorem knownAnswerTestDetectsWrongAnswersOnTestedInputs :
    Obligations.KnownAnswerTestDetectsWrongAnswersOnTestedInputs := by
  refine ⟨fun text t hlen => ?_, fun text t b i hi hne => ?_, fun text t b hne => ?_,
    fun text t b n slot hn hslot hne => ?_, fun text t b c hcore hscalar hwide => ?_⟩
  · exact (knownAnswerTest_iff text t _).mpr (faithful_knownAnswers hlen t)
  · exact knownAnswerTest_eq_false fun h => hne (h.core i hi)
  · exact knownAnswerTest_eq_false fun h => hne h.scalar
  · exact knownAnswerTest_eq_false fun h => hne (h.wide n slot hn hslot)
  · rw [Bool.eq_iff_iff, knownAnswerTest_iff, knownAnswerTest_iff]
    exact ⟨fun h => h.congr hcore hscalar hwide, fun h => h.congr (fun i hi => (hcore i hi).symm) hscalar.symm
      fun n hn => (hwide n hn).symm⟩

end Sys2Proof.Machine
end

section
/-! PROOF. The statements of the hasher family (spec 45_hasher.md): H_RESET (R221), H_WRITE (R223), H_FINALIZE (R225),
the table of the hasher states (R220), the padding and the count of compressions (R222, R226), and that the digest is
SHA-256 of all the bytes written, however they are split (R227 to R229). -/

namespace Sys2Proof.Machine

/-! ### The checks the hasher commands make first (R256, R257) -/

theorem readyChecks_dead {s : State} (hd : s.cfg.dead = true) (l : List (Bool × ErrCode)) :
    firstFault (s.readyChecks ++ l) = some .dead := by
  simp [State.readyChecks, hd]

theorem readyChecks_not_dispatched {s : State} (hd : s.cfg.dead = false) (hv : s.cfg.valid = false)
    (l : List (Bool × ErrCode)) : firstFault (s.readyChecks ++ l) = some .notDispatched := by
  simp [State.readyChecks, hd, hv]

/-- A command that raises a fault other than `E_SELFTEST` sets the error code and nothing else (R254). -/
theorem exec_raises_put {i : Instr} {s : State} {x : Instance} {e : ErrCode} (hx : s.current = some x)
    (hc : firstFault (checksOf i s x) = some e) (he : e ≠ .selftest) :
    exec i s = .next (s.put { x with err := e }) := by
  rw [exec_raises hx hc, State.raise_eq_put s x he]

/-- Settles O47: H_RESET makes no check but that the engine is ready. -/
theorem hResetReturnsToFresh : Obligations.HResetReturnsToFresh := by
  refine fun s x hx => ⟨fun hd hv => ?_, fun hd => ?_, fun hd hv => ?_⟩
  · exact exec_completes hx (readyChecks_pass ⟨hv, hd⟩ [])
  · exact exec_raises_put hx (readyChecks_dead hd []) nofun
  · exact exec_raises_put hx (readyChecks_not_dispatched hd hv []) nofun

/-! ### H_WRITE (R223) -/

/-- Compressing the first `n` blocks is `Compress` folded over the 64 bytes at the offsets `64 i`. -/
theorem compressBlocks_eq_foldl (n : Nat) (s : HashState) (data : List Byte) :
    compressBlocks n s data =
      (List.range n).foldl (fun st i => compress st ((data.drop (64 * i)).take 64)) s := by
  induction n with
  | zero => rfl
  | succ n ih =>
    rw [compressBlocks_add, ih, List.range_succ, List.foldl_append]
    rfl

/-- An instance after an H_WRITE of its source buffer in the data space `M` completes. -/
def Instance.written (x : Instance) (M : Memory) : Instance :=
  { x.absorb (M.readBytes x.srcAddr x.srcLen) with err := .ok }

/-- H_WRITE completes on a ready engine, not finalized, with an admitted source and a total below `2^61`. -/
theorem exec_hWrite {s : State} {x : Instance} (hx : s.current = some x) (hr : s.Ready) (hst : x.hst ≠ .finalized)
    (hsrc : Admitted s.params x.src) (hlen : x.total.toNat + x.srcLen < 2 ^ 61) :
    exec .hWrite s = .next (s.put (x.written s.mem)) := by
  have hpass : firstFault (checksOf .hWrite s x) = none := by
    simpa [checksOf, hWriteChecks, readyChecks_pass hr, beq_false_of_ne hst, bufferChecks_pass hsrc, firstFault_cons]
      using hlen
  rw [exec_completes hx hpass, effectOf, hWriteEffect, State.commit, Instance.written]

/-- H_WRITE after the host has replaced the registers of the current instance by `y`. -/
theorem exec_hWrite_put {s : State} {x y : Instance} (hx : s.current = some x) (hr : s.Ready)
    (hst : y.hst ≠ .finalized) (hsrc : Admitted s.params y.src) (hlen : y.total.toNat + y.srcLen < 2 ^ 61) :
    exec .hWrite (s.put y) = .next (s.put (y.written s.mem)) :=
  (exec_hWrite (State.current_put hx y) (hr.put y) hst hsrc hlen).trans (by rw [State.put_put, State.put_mem])

/-- The whole blocks of the buffered and the new bytes are compressed. -/
theorem absorb_h (x : Instance) (d : List Byte) :
    (x.absorb d).h = compressBlocks ((x.buffered ++ d).length / 64) x.h (x.buffered ++ d) := rfl

theorem absorb_bufLen (x : Instance) (d : List Byte) :
    (x.absorb d).bufLen.val = (x.buffered ++ d).length % 64 := rfl

theorem absorb_total_toNat {x : Instance} {data : List Byte} (hlen : x.total.toNat + data.length < 2 ^ 61) :
    (x.absorb data).total.toNat = x.total.toNat + data.length :=
  (BitVec.toNat_ofNat ..).trans (Nat.mod_eq_of_lt (by omega))

theorem written_total_toNat {x : Instance} (M : Memory) (hlen : x.total.toNat + x.srcLen < 2 ^ 61) :
    (x.written M).total.toNat = x.total.toNat + x.srcLen := by
  rw [Instance.written, absorb_total_toNat (by rwa [Memory.readBytes_length]), Memory.readBytes_length]

/-- Settles O48: H_WRITE completes, and its registers are those `absorb` leaves. -/
theorem hWriteAbsorbsItsBytes : Obligations.HWriteAbsorbsItsBytes := by
  intro s x hx hr hst hsrc hlen stream q
  refine ⟨(x.written s.mem).buf, (x.written s.mem).bufLen, (x.written s.mem).total, ?_, ?_,
    absorb_buffered x _, written_total_toNat s.mem hlen⟩
  · rw [exec_hWrite hx hr hst hsrc hlen, ← compressBlocks_eq_foldl]
    rfl
  · have hrest : (x.written s.mem).bufLen.val = stream.length % 64 := absorb_bufLen x _
    rw [hrest, Nat.mod_def]

/-! ### H_FINALIZE (R225) -/

/-- An instance after an H_FINALIZE completes. -/
def Instance.finalized (x : Instance) : Instance := { x with h := x.finalState, hst := .finalized, err := .ok }

/-- H_FINALIZE completes on a ready engine, not finalized, with the length it requires and an admitted destination. -/
theorem exec_hFinalize {s : State} {x : Instance} (hx : s.current = some x) (hr : s.Ready) (hst : x.hst ≠ .finalized)
    (hlen : x.dstLen = 32) (hdst : Admitted s.params x.dst) :
    exec .hFinalize s =
      .next { s.put x.finalized with mem := s.mem.writeBytes x.dstAddr (digest x.finalState) } := by
  have hpass : firstFault (checksOf .hFinalize s x) = none := by
    simpa [checksOf, hFinalizeChecks, readyChecks_pass hr, beq_false_of_ne hst, hlen] using bufferChecks_pass hdst []
  rw [exec_completes hx hpass, effectOf, hFinalizeEffect, State.commit, Instance.finalized]

/-- Settles O49: H_FINALIZE completes, and `finalState` is the fold over the blocks of the padded tail. -/
theorem hFinalizeStoresTheDigest : Obligations.HFinalizeStoresTheDigest := by
  intro s x hx hr hst hlen hdst tail final
  have hfinal : x.finalState = final := compressBlocks_eq_foldl ..
  rw [exec_hFinalize hx hr hst hlen hdst, Instance.finalized, hfinal]

/-! ### The table of the hasher states (R220) -/

/-- The hasher state a completing command leaves. -/
theorem instOf_hst (i : Instr) (s : State) (x : Instance) :
    (i = .hReset → (instOf i s x).hst = .fresh) ∧ (i = .hWrite → (instOf i s x).hst = .accumulating) ∧
      (i = .hFinalize → (instOf i s x).hst = .finalized) := by
  cases i <;> simp [instOf, Instance.absorb]

/-- H_WRITE and H_FINALIZE do not complete on a finalized hasher (R220). -/
theorem not_finalized_of_pass {i : Instr} {s : State} {x : Instance} (hi : i = .hWrite ∨ i = .hFinalize)
    (hc : firstFault (checksOf i s x) = none) : x.hst ≠ .finalized :=
  fun hfin => checksOf_none hc .hasherState ⟨hi, hfin⟩

theorem checksOf_finalized {i : Instr} {s : State} {x : Instance} (hi : i = .hWrite ∨ i = .hFinalize) (hr : s.Ready)
    (hfin : x.hst = .finalized) : firstFault (checksOf i s x) = some .hasherState := by
  rcases hi with rfl | rfl
  · simp [checksOf, hWriteChecks, readyChecks_pass hr, hfin]
  · simp [checksOf, hFinalizeChecks, readyChecks_pass hr, hfin]

/-- Replacing an instance by one of the same hasher state leaves all hasher states as they are. -/
theorem map_hst_set {l : List Instance} {k : Nat} {x y : Instance} (hx : l[k]? = some x) (hy : y.hst = x.hst) :
    (l.set k y).map (·.hst) = l.map (·.hst) := by
  obtain ⟨hk, rfl⟩ := List.getElem?_eq_some_iff.mp hx
  rw [List.map_set, hy, ← List.map_set, List.set_getElem_self]

/-- No host register write but that of `CMD` moves a hasher state. -/
theorem step_wr_hst {s t : State} {agent k n v : Nat} {rest : List HostAction} (hs : s.script = .wr agent k n v :: rest)
    (hn : n ≠ 15) (ht : step s = .next t) : t.insts.map (·.hst) = s.insts.map (·.hst) := by
  rw [step_of_script_cons hs] at ht
  rcases act_next_cases ht with ⟨_, _, _, _, ha, _⟩ | ⟨_, _, _, _, x, _, y, _, hx, _, _, _, hy, _, rfl⟩ |
    ⟨_, _, _, _, _, ha, _⟩ | ⟨_, _, ha, _⟩ | ⟨_, _, ha, _⟩ | ⟨ha, _⟩
  · cases ha
    exact absurd rfl hn
  · obtain ⟨-, -, -, hhst, -, -⟩ := writeHostReg_keeps hy
    exact map_hst_set hx hhst
  all_goals cases ha

/-- `x` in another hasher state. -/
def Instance.withHst (x : Instance) (hst : HasherState) : Instance := { x with hst := hst }

/-- The checks only ask whether the hasher is finalized. -/
theorem checksOf_withHst (i : Instr) (s : State) (x : Instance) :
    checksOf i (s.put (x.withHst .accumulating)) (x.withHst .accumulating) =
      checksOf i (s.put (x.withHst .fresh)) (x.withHst .fresh) := by
  cases i <;> rfl

/-- A fault does not depend on the hasher state, and leaves it. -/
theorem raise_withHst (s : State) (x : Instance) (hst : HasherState) (e : ErrCode) :
    (s.put (x.withHst hst)).raise (x.withHst hst) e =
      (s.raise x e).put (Instance.withHst { x with err := e } hst) :=
  raise_withHasher s x x.h x.buf x.bufLen x.total hst e

/-- The commands that move the hasher state (R220). -/
def hasherCommands : List Instr := [.hReset, .hWrite, .hFinalize]

/-- The effect of the commands that move the hasher state does not depend on the state they find. -/
theorem effectOf_withHst_of_mem {i : Instr} (hi : i ∈ hasherCommands) (s : State) (x : Instance)
    (hst : HasherState) : effectOf i (s.put (x.withHst hst)) (x.withHst hst) = effectOf i s x := by
  cases i with
  | hReset | hWrite | hFinalize =>
    simp only [effectOf, hResetEffect, hWriteEffect, hFinalizeEffect, State.commit, State.put_put]
    rfl
  | transform | d64 | d64Way2 | d64Way4 | d64Way8 | dispatch | sha256d64 => exact absurd hi (by decide)

/-- The effect of every other command leaves the hasher state it finds and is otherwise the same. -/
theorem effectOf_withHst_of_not_mem {i : Instr} (hi : i ∉ hasherCommands) (s : State) (x : Instance)
    (hst : HasherState) : effectOf i (s.put (x.withHst hst)) (x.withHst hst) =
      (effectOf i s x).put (Instance.withHst { instOf i s x with err := .ok } hst) := by
  cases i with
  | transform => simp [effectOf, transformEffect, State.commit, Instance.withHst, instOf]
  | hReset | hWrite | hFinalize => exact absurd hi (by decide)
  | d64 | d64Way2 | d64Way4 | d64Way8 | dispatch | sha256d64 =>
    exact effectOf_withHasher s x x.h x.buf x.bufLen x.total hst (by decide)

/-- FRESH and ACCUMULATING behave identically in every command: the answers are equal or differ in the state they
found. -/
theorem exec_withHst (i : Instr) {s : State} {x : Instance} (hx : s.current = some x) :
    ∃ t y, exec i (s.put (x.withHst .fresh)) = .next t ∧ t.current = some y ∧
      (exec i (s.put (x.withHst .accumulating)) = .next t ∨
        y.hst = .fresh ∧ exec i (s.put (x.withHst .accumulating)) = .next (t.put (y.withHst .accumulating))) := by
  have hcur := fun hst => State.current_put hx (x.withHst hst)
  have hchecks := checksOf_withHst i s x
  cases hc : firstFault (checksOf i (s.put (x.withHst .fresh)) (x.withHst .fresh)) with
  | some e =>
    have hraised := current_of_set hx (s.raise_insts x e) (s.raise_sel x e)
    refine ⟨_, _, (exec_raises (hcur _) hc).trans (congrArg _ (raise_withHst ..)), State.current_put hraised _,
      .inr ⟨rfl, ?_⟩⟩
    rw [exec_raises (hcur _) (hchecks ▸ hc), raise_withHst, State.put_put]
    rfl
  | none =>
    have hdone := current_of_set hx (effectOf_insts i s x) (effectOf_sel i s x)
    by_cases hi : i ∈ hasherCommands
    · have heffect := effectOf_withHst_of_mem hi s x
      exact ⟨_, _, (exec_completes (hcur _) hc).trans (congrArg _ (heffect _)), hdone,
        .inl ((exec_completes (hcur _) (hchecks ▸ hc)).trans (congrArg _ (heffect _)))⟩
    · have heffect := effectOf_withHst_of_not_mem hi s x
      refine ⟨_, _, (exec_completes (hcur _) hc).trans (congrArg _ (heffect _)), State.current_put hdone _,
        .inr ⟨rfl, ?_⟩⟩
      rw [exec_completes (hcur _) (hchecks ▸ hc), heffect, State.put_put]
      rfl

/-- Settles O50: a fault keeps the hasher state, a completing command leaves what `instOf` says, and the checks and
effects tell FRESH and ACCUMULATING apart in nothing else. -/
theorem hasherStateFollowsItsTable : Obligations.HasherStateFollowsItsTable := by
  refine ⟨fun i s t x y hx ht hy => ⟨fun herr => ?fault, fun hok => ?completion⟩,
    fun i s x hi hx hr hfin => exec_raises_put hx (checksOf_finalized hi hr hfin) nofun,
    fun s t agent k n v rest hs hn ht => step_wr_hst hs hn ht, fun i s x hx => exec_withHst i hx⟩
  case fault =>
    obtain ⟨e, rfl⟩ := raised_of_err_ne_ok hx ht hy herr
    rw [current_of_set hx (s.raise_insts x e) (s.raise_sel x e)] at hy
    cases hy
    rfl
  case completion =>
    obtain ⟨hc, rfl⟩ := completed_of_err_ok hx ht hy hok
    rw [current_of_set hx (effectOf_insts i s x) (effectOf_sel i s x)] at hy
    cases hy
    obtain ⟨hreset, hwrite, hfinalize⟩ := instOf_hst i s x
    obtain ⟨-, -, -, hframe⟩ := instOf_hasher_frame i s x
    exact ⟨hreset, fun hi => ⟨not_finalized_of_pass (.inl hi) hc, hwrite hi⟩,
      fun hi => ⟨not_finalized_of_pass (.inr hi) hc, hfinalize hi⟩, hframe⟩

/-! ### The padding (R222, R226) -/

theorem padZeros_of_le {len : Nat} (h : len % 64 ≤ 55) : padZeros len = 55 - len % 64 := by
  unfold padZeros
  omega

theorem padZeros_of_ge {len : Nat} (h : 56 ≤ len % 64) : padZeros len = 119 - len % 64 := by
  unfold padZeros
  omega

/-- Settles O51: the field is `enc64` of `8 L`, which fits 64 bits, and the rest is the length of the padding. -/
theorem paddingCompletesTheBlocks : Obligations.PaddingCompletesTheBlocks := by
  intro len hlen
  have hz := padZeros_lt len
  have hfield : (BitVec.ofNat 64 (8 * len)).toNat = 8 * len :=
    (BitVec.toNat_ofNat ..).trans (Nat.mod_eq_of_lt (by omega))
  refine ⟨padZeros len, enc64 (BitVec.ofNat 64 (8 * len)), rfl, hz, padZeros_mod len, enc64_length _,
    (enc64_foldl_toNat _).trans hfield, ?_, ?_, fun h => ⟨padZeros_of_le h, ?_⟩, fun h => ⟨padZeros_of_ge h, ?_⟩⟩
  · rw [pad_length]; omega
  · rw [pad_length]; omega
  · rw [pad_length, padZeros_of_le h]; omega
  · rw [pad_length, padZeros_of_ge h]; omega

/-- Settles O52: the tail is one block or two, split at a rest of 55 bytes. -/
theorem compressionCountOfAMessage : Obligations.CompressionCountOfAMessage := by
  intro len
  rw [pad_length]
  rcases Nat.lt_or_ge 55 (len % 64) with h | h
  · rw [padZeros_of_ge h]; omega
  · rw [padZeros_of_le h]; omega

/-! ### Writes of consecutive pieces (R228) -/

/-- The hasher of `y` is the one that appending `data` to the hasher of `x` leaves (but for `HST`), and its destination
is that of `x`. -/
structure Instance.HasAbsorbed (x : Instance) (data : List Byte) (y : Instance) : Prop where
  h_eq : y.h = (x.absorb data).h
  buffered_eq : y.buffered = (x.absorb data).buffered
  total_eq : y.total = (x.absorb data).total
  dst_eq : y.dst = x.dst

theorem absorb_total_add (x : Instance) (d e : List Byte) :
    ((x.absorb d).absorb e).total = (x.absorb (d ++ e)).total := by
  simp only [Instance.absorb, List.length_append]
  apply BitVec.eq_of_toNat_eq
  simp only [BitVec.toNat_ofNat]
  omega

/-- Appending depends on `H`, the buffered bytes and `TOTAL` alone. -/
theorem absorb_congr {x y : Instance} (hh : y.h = x.h) (hb : y.buffered = x.buffered) (ht : y.total = x.total)
    (d : List Byte) : (y.absorb d).h = (x.absorb d).h ∧ (y.absorb d).buffered = (x.absorb d).buffered ∧
      (y.absorb d).total = (x.absorb d).total := by
  refine ⟨?_, by rw [absorb_buffered, absorb_buffered, hb], ?_⟩
  · rw [absorb_h, absorb_h, hh, hb]
  · simp only [Instance.absorb, ht]

theorem hasAbsorbed_nil (x : Instance) : x.HasAbsorbed [] x where
  h_eq := (absorb_nil x).1.symm
  buffered_eq := (absorb_nil x).2.symm
  total_eq := (BitVec.ofNat_toNat 64 x.total).symm
  dst_eq := rfl

/-- Appending `d` and then `e` is appending `d || e`. -/
theorem Instance.HasAbsorbed.trans {x y z : Instance} {d e : List Byte} (hd : x.HasAbsorbed d y)
    (he : y.HasAbsorbed e z) : x.HasAbsorbed (d ++ e) z := by
  obtain ⟨hh, hb, ht⟩ := absorb_congr hd.h_eq hd.buffered_eq hd.total_eq e
  obtain ⟨hh', hb', -⟩ := absorb_absorb x d e
  exact ⟨he.h_eq.trans (hh.trans hh'), he.buffered_eq.trans (hb.trans hb'),
    he.total_eq.trans (ht.trans (absorb_total_add x d e)), he.dst_eq.trans hd.dst_eq⟩

/-- Settles O53: all three writes complete, and the second piece is appended to what the first leaves. -/
theorem writesAreSplitInvariant : Obligations.WritesAreSplitInvariant := by
  intro s x n m hx hr hst _ hall hlen
  have hcur := State.current_put hx
  have hfirst : Admitted s.params ⟨x.srcAddr, n⟩ := hall.sub (Nat.le_refl _) (by dsimp only; omega)
  have hrest : Admitted s.params ⟨x.srcAddr + n, m⟩ := hall.sub (Nat.le_add_right ..) (by dsimp only; omega)
  have htotal : (Instance.written { x with srcLen := n } s.mem).total.toNat = x.total.toNat + n :=
    written_total_toNat s.mem (by dsimp only; omega)
  have habsorb := absorb_absorb x (s.mem.readBytes x.srcAddr n) (s.mem.readBytes (x.srcAddr + n) m)
  have htotals := absorb_total_add x (s.mem.readBytes x.srcAddr n) (s.mem.readBytes (x.srcAddr + n) m)
  rw [← Memory.readBytes_add] at habsorb htotals
  obtain ⟨hh, hbuffered, hbufLen⟩ := habsorb
  exact ⟨_, _, _, _, _, _, exec_hWrite_put hx hr hst hall hlen, hcur _,
    exec_hWrite_put hx hr hst hfirst (by dsimp only; omega), hcur _,
    exec_hWrite_put (hcur _) (hr.put _) nofun hrest (by dsimp only; omega), State.current_put (hcur _) _, rfl, rfl, rfl,
    hh, hbuffered, hbufLen, htotals, rfl⟩

/-! ### Any number of writes (R228) -/

theorem State.put_current {s : State} {x : Instance} (hx : s.current = some x) : s.put x = s := by
  obtain ⟨hk, rfl⟩ := List.getElem?_eq_some_iff.mp hx
  rw [State.put, List.set_getElem_self]

/-- The state before a command of a run: the host has replaced the registers of the current instance and the data
space. -/
def State.prepared (s : State) (x : Instance) (M : Memory) : State := { s.put x with mem := M }

theorem State.prepared_prepared (s : State) (x y : Instance) (M N : Memory) :
    (s.prepared x M).prepared y N = s.prepared y N := by
  simp [State.prepared, State.put, List.set_set]

theorem State.current_prepared {s : State} {x : Instance} (hx : s.current = some x) (y : Instance) (M : Memory) :
    (s.prepared y M).current = some y :=
  State.current_put hx y

theorem State.Ready.prepared {s : State} (hr : s.Ready) (y : Instance) (M : Memory) : (s.prepared y M).Ready :=
  ⟨hr.valid, hr.alive⟩

/-- The registers of an instance once the host has set the source of an H_WRITE. -/
def HashWrite.operands (w : HashWrite) (x : Instance) : Instance :=
  { x with srcAddr := w.buf.addr, srcLen := w.buf.len }

/-- The registers of an instance after an H_WRITE of a run. -/
def HashWrite.result (w : HashWrite) (x : Instance) : Instance := (w.operands x).written w.mem

theorem HashWrite.bytes_length (w : HashWrite) : w.bytes.length = w.buf.len := Memory.readBytes_length ..

/-- An H_WRITE of a run appends its bytes. -/
theorem hasAbsorbed_result (w : HashWrite) (x : Instance) : x.HasAbsorbed w.bytes (w.result x) :=
  ⟨rfl, rfl, rfl, rfl⟩

/-- An H_WRITE of a run completes. -/
theorem exec_hWrite_prepared {s : State} {x : Instance} {w : HashWrite} (hx : s.current = some x) (hr : s.Ready)
    (hst : x.hst ≠ .finalized) (hadm : Admitted s.params w.buf) (hlen : x.total.toNat + w.bytes.length < 2 ^ 61) :
    exec .hWrite (s.prepared (w.operands x) w.mem) = .next (s.prepared (w.result x) w.mem) := by
  rw [HashWrite.bytes_length] at hlen
  rw [exec_hWrite (x := w.operands x) (State.current_prepared hx _ _) (hr.prepared _ _) hst hadm hlen]
  exact congrArg _ (s.prepared_prepared (w.operands x) (w.result x) w.mem w.mem)

/-- The H_WRITEs `ws` all complete, and what they leave is what appending their bytes at once leaves. -/
theorem hWrites_complete (ws : List HashWrite) {s : State} {x : Instance} (hx : s.current = some x) (hr : s.Ready)
    (hst : x.hst ≠ .finalized) (hadm : ∀ w ∈ ws, Admitted s.params w.buf)
    (hlen : x.total.toNat + (ws.flatMap HashWrite.bytes).length < 2 ^ 61) :
    ∃ y, s.HWritesComplete ws (s.prepared y ((ws.map (·.mem)).getLastD s.mem)) ∧
      x.HasAbsorbed (ws.flatMap HashWrite.bytes) y ∧ y.hst = if ws = [] then x.hst else .accumulating := by
  induction ws generalizing s x with
  | nil => exact ⟨x, State.put_current hx, hasAbsorbed_nil x, rfl⟩
  | cons w ws ih =>
    rw [List.flatMap_cons, List.length_append] at hlen
    have hcur := State.current_prepared hx (w.result x) w.mem
    have htotal : (w.result x).total.toNat = x.total.toNat + w.bytes.length := by
      rw [(hasAbsorbed_result w x).total_eq, absorb_total_toNat (by omega)]
    obtain ⟨y, hdone, habsorbed, hhst⟩ := ih hcur (hr.prepared _ _) nofun
      (fun v hv => hadm v (List.mem_cons_of_mem _ hv)) (by omega)
    rw [State.prepared_prepared] at hdone
    refine ⟨y, ⟨x, _, _, hx, exec_hWrite_prepared hx hr hst (hadm w (List.mem_cons_self ..)) (by omega), hcur, rfl, ?_⟩,
      (hasAbsorbed_result w x).trans habsorbed, ?_⟩
    · rw [List.map_cons, List.getLastD_cons]
      exact hdone
    · rw [hhst, if_neg (List.cons_ne_nil w ws)]
      exact ite_id _

/-- On an empty buffer, appending compresses the whole blocks of the bytes and keeps their rest. -/
theorem absorb_of_empty {x : Instance} (hbufLen : x.bufLen = 0) (d : List Byte) :
    (x.absorb d).h = compressBlocks (d.length / 64) x.h d ∧
      (x.absorb d).buffered = d.drop (64 * (d.length / 64)) ∧ (x.absorb d).bufLen.val = d.length % 64 := by
  rw [absorb_h, absorb_buffered, absorb_bufLen, buffered_nil hbufLen, List.nil_append]
  exact ⟨rfl, rfl, rfl⟩

/-- Settles O54: the writes leave the hasher of `M`, and folding its rest with the padding is folding `M || Pad`. -/
theorem hasherComputesSha256OfAllWrites : Obligations.HasherComputesSha256OfAllWrites := by
  intro s x ws hx hr hh hbufLen htotal hfresh hadm m mem hlen
  have hzero : x.total.toNat = 0 := congrArg BitVec.toNat htotal
  have hsum : x.total.toNat + m.length < 2 ^ 61 := by rwa [hzero, Nat.zero_add]
  obtain ⟨y, hdone, habsorbed, hhst⟩ := hWrites_complete ws hx hr (by rw [hfresh]; nofun) hadm hsum
  have hcur := State.current_prepared hx y mem
  obtain ⟨habsorb_h, habsorb_buffered, -⟩ := absorb_of_empty hbufLen m
  have hyh : y.h = compressBlocks (m.length / 64) Rom.IV m := by rw [habsorbed.h_eq, habsorb_h, hh]
  have hybuffered := habsorbed.buffered_eq.trans habsorb_buffered
  have hytotal : y.total.toNat = m.length := by
    rw [habsorbed.total_eq, absorb_total_toNat hsum, hzero, Nat.zero_add]
  rw [hfresh] at hhst
  refine ⟨_, y, hdone, hcur, rfl, hyh, hybuffered, hytotal, hhst, fun hdstLen hdst => ?_⟩
  have hdigest : digest y.finalState = sha256 m := by
    rw [Instance.finalState, hyh, hybuffered, hytotal, foldBlocks_pad, sha256]
  have hopen : y.hst ≠ .finalized := by
    rw [hhst]
    split <;> nofun
  obtain ⟨hdstAddr', hdstLen'⟩ := Buffer.mk.inj habsorbed.dst_eq
  refine ⟨_, _, exec_hFinalize hcur (hr.prepared _ _) hopen (hdstLen'.trans hdstLen) (habsorbed.dst_eq ▸ hdst),
    State.current_put hcur _, rfl, ?_, hdigest⟩
  rw [hdigest, hdstAddr']
  rfl

/-! ### TRANSFORM and the double hash (R229) -/

/-- Settles O55: on an empty buffer H_WRITE compresses exactly the blocks of its source. -/
theorem hasherAgreesWithTransformAndD64 : Obligations.HasherAgreesWithTransformAndD64 := by
  refine ⟨fun s x hx hr hst hbufLen hsrcLen hsrc hlen => ?_, fun x hx => d64fn_eq_sha256_sha256 hx⟩
  obtain ⟨hh, -, hrest⟩ := absorb_of_empty hbufLen (s.mem.readBytes x.srcAddr x.srcLen)
  rw [Memory.readBytes_length, hsrcLen] at hh hrest
  rw [Nat.mul_div_cancel_left _ (by decide)] at hh
  rw [Nat.mul_mod_right] at hrest
  have htotal := written_total_toNat s.mem hlen
  rw [hsrcLen] at htotal
  refine ⟨_, _, _, _, exec_hWrite hx hr hst hsrc hlen, State.current_put hx _, exec_transform hx hr hsrcLen hsrc,
    State.current_put hx _, rfl, rfl, ?_, htotal, Fin.ext ?_, rfl⟩
  · rw [Instance.written, hsrcLen, hh, Instance.transformed]
  · rw [Instance.written, hsrcLen, hrest]
    rfl

end Sys2Proof.Machine
end

section
/-! PROOF. The statements of the batch-driver family (spec 46_batch_driver.md): what SHA256D64 stores (R243), and the
greedy plan of its lane groups (R241). -/

namespace Sys2Proof.Machine

/-! ### SHA256D64 (R240, R243) -/

/-- The checks of R240 pass on a ready engine with the lengths `CNT` requires and admitted disjoint buffers; no width
bit is looked at. -/
theorem sha256d64Checks_pass {s : State} {x : Instance} (hr : s.Ready) (hsrcLen : x.srcLen = 64 * x.cnt)
    (hdstLen : x.dstLen = 32 * x.cnt) (hsrc : Admitted s.params x.src) (hdst : Admitted s.params x.dst)
    (hd : Disjoint x.src x.dst) : firstFault (sha256d64Checks s x) = none := by
  rw [sha256d64Checks, List.append_assoc, readyChecks_pass hr]
  simpa [hsrcLen, hdstLen] using twoBufferChecks_pass hsrc hdst hd

/-- A plan worked on a buffer of the data space gives `D64fn` of each block in order, whatever the plan's widths. -/
theorem runPlan_readBytes (m : Memory) (addr : Nat) {ws : List Nat} {n : Nat} (hsum : ws.sum = n) :
    runPlan ws (m.readBytes addr (64 * n)) =
      (List.range n).flatMap fun k => d64fn (m.readBytes (addr + 64 * k) 64) := by
  rw [runPlan_eq, hsum, laneBlocks_readBytes, List.flatMap_map]

theorem plan_sum (c : Cfg) (n : Nat) : (plan c n).sum = n := planWithin_sum c n n (Nat.le_refl n)

/-- Settles O40: the checks pass, and the plan's widths sum to `CNT`, which is all the stored bytes depend on. -/
theorem batchEqualsScalarDoubleHashes : Obligations.BatchEqualsScalarDoubleHashes := by
  intro s x hx hr hsrcLen hdstLen hsrc hdst hd
  have hpass : firstFault (checksOf .sha256d64 s x) = none := sha256d64Checks_pass hr hsrcLen hdstLen hsrc hdst hd
  rw [exec_completes hx hpass, effectOf, sha256d64Effect, State.commit, runPlan_readBytes _ _ (plan_sum s.cfg x.cnt)]

/-! ### The greedy plan (R241) -/

/-- A plan for at least one block begins with the next width and goes on with the blocks that remain. -/
theorem plan_of_pos (c : Cfg) {n : Nat} (h : 0 < n) : plan c n = nextWidth c n :: plan c (n - nextWidth c n) := by
  cases n with
  | zero => exact absurd h (Nat.lt_irrefl 0)
  | succ n => exact plan_succ c n

/-- Induction over the lane groups of a plan: from the blocks that remain after a group to the blocks before it. -/
theorem plan_induction (c : Cfg) {motive : Nat → Prop} (zero : motive 0)
    (group : ∀ n, 0 < n → motive (n - nextWidth c n) → motive n) (n : Nat) : motive n := by
  induction n using Nat.strong_induction_on with
  | _ n ih =>
    rcases Nat.eq_zero_or_pos n with rfl | hn
    · exact zero
    · exact group n hn (ih _ (Nat.sub_lt hn (nextWidth_pos c n)))

/-- With fewer blocks left, the widest installed width that fits is no wider: a width that fits `m` blocks fits `n`. -/
theorem nextWidth_mono (c : Cfg) {m n : Nat} (h : m ≤ n) : nextWidth c m ≤ nextWidth c n := by
  rw [nextWidth]
  split_ifs with h8 h4 h2
  · rw [nextWidth, if_pos ⟨h8.1.trans h, h8.2⟩]
  · have hn : 4 ≤ n ∧ c.w4 = true := ⟨h4.1.trans h, h4.2⟩
    rw [nextWidth, if_pos hn]
    split_ifs <;> decide
  · have hn : 2 ≤ n ∧ c.w2 = true := ⟨h2.1.trans h, h2.2⟩
    rw [nextWidth, if_pos hn]
    split_ifs <;> decide
  · exact nextWidth_pos c n

/-- Every width of a plan is at most the first. -/
theorem le_nextWidth_of_mem_plan (c : Cfg) (n : Nat) : ∀ w ∈ plan c n, w ≤ nextWidth c n := by
  induction n using plan_induction c with
  | zero => simp
  | group n hn ih =>
    rw [plan_of_pos c hn, List.forall_mem_cons]
    exact ⟨Nat.le_refl _, fun w hw => (ih w hw).trans (nextWidth_mono c (Nat.sub_le ..))⟩

/-- The widths of a plan never increase. -/
theorem plan_pairwise (c : Cfg) (n : Nat) : (plan c n).Pairwise fun v w => w ≤ v := by
  induction n using plan_induction c with
  | zero => exact List.Pairwise.nil
  | group n hn ih =>
    rw [plan_of_pos c hn, List.pairwise_cons]
    exact ⟨fun w hw => (le_nextWidth_of_mem_plan c _ w hw).trans (nextWidth_mono c (Nat.sub_le ..)), ih⟩

/-- With every width installed, each group takes the greatest power of two up to 8 that fits, so the groups of a plan
are the eights of `n` and the one bits of what is left. -/
theorem plan_length_of_all_installed {c : Cfg} (h2 : c.w2 = true) (h4 : c.w4 = true) (h8 : c.w8 = true) (n : Nat) :
    (plan c n).length = n / 8 + (n % 8 / 4 + n % 4 / 2 + n % 2) := by
  induction n using plan_induction c with
  | zero => rfl
  | group n hn ih =>
    rw [plan_of_pos c hn, List.length_cons, ih]
    simp only [nextWidth, h2, h4, h8, and_true]
    split_ifs <;> omega

/-- Settles O41: a plan is its next width and the plan of the rest; the order and the number of groups follow by
induction over the groups, and the table is evaluated. -/
theorem planIsGreedy : Obligations.PlanIsGreedy := by
  refine ⟨fun c n => ?_, fun c n => ⟨plan_pairwise c n, plan_sum c n⟩, by decide,
    fun _ n h2 h4 h8 => plan_length_of_all_installed h2 h4 h8 n⟩
  rcases Nat.eq_zero_or_pos n with rfl | hn
  · rfl
  · rw [plan_of_pos c hn, nextWidth, if_pos (Nat.succ_le_of_lt hn)]
    split_ifs <;> rfl

end Sys2Proof.Machine
end

section
/-! PROOF. The statements of the families of exceptions and of reset and hazards (spec 60_exceptions.md,
70_reset_and_hazards.md): what a fault changes (R253, R254), that every command answers a next state (R308), which fault
is reported (R252, R255 to R258, R264), and when the configuration changes (R256, R265, R302). -/

namespace Sys2Proof.Machine

/-! ### Taking a fault (R253, R254) -/

/-- Everything a fault does: the error code of the issuing instance, and `CFG.DEAD` for `E_SELFTEST` (R254). -/
theorem State.raise_eq (s : State) (x : Instance) (e : ErrCode) :
    s.raise x e = { s with
      insts := s.insts.set s.sel { x with err := e }
      cfg := if e = .selftest then { s.cfg with dead := true } else s.cfg } := by
  by_cases he : e = .selftest <;> simp [State.raise, State.put, he]

/-- The issuing instance after a fault. -/
theorem State.current_raise {s : State} {x : Instance} (hx : s.current = some x) (e : ErrCode) :
    (s.raise x e).current = some { x with err := e } :=
  current_of_set hx (s.raise_insts x e) (s.raise_sel x e)

/-- Settles O18: `State.raise_eq` lists all that `raise` changes. -/
theorem raisingAFaultChangesOnlyTheErrorCode : Obligations.RaisingAFaultChangesOnlyTheErrorCode := by
  intro s x e hx
  refine ⟨s.raise x e, rfl, State.current_raise hx e, fun j hj => other_of_set (s.raise_insts x e) hj,
    s.raise_cfg x e, ?_⟩
  rw [s.raise_insts, s.raise_cfg]
  exact s.raise_eq x e

/-- A command stays on the instance it was issued on. -/
theorem exec_sel {i : Instr} {s t : State} (ht : exec i s = .next t) : t.sel = s.sel := by
  obtain ⟨x, -, ⟨e, -, rfl⟩ | ⟨-, rfl⟩⟩ := exec_next_cases ht
  · exact s.raise_sel x e
  · exact effectOf_sel i s x

/-- Settles O20: the checks of a command either report a fault, which is raised, or let it have its effect. -/
theorem everyCommandAnswersANextState : Obligations.EveryCommandAnswersANextState := by
  intro i s hs
  suffices h : ∃ t, exec i s = .next t from h.imp fun t ht => ⟨ht, exec_sel ht⟩
  have hx := State.current_of_lt hs
  cases hc : firstFault (checksOf i s s.insts[s.sel]) with
  | some e => exact ⟨_, exec_raises hx hc⟩
  | none => exact ⟨_, exec_completes hx hc⟩

/-- Settles O19: a command that leaves an error code has raised it, and so has an illegal word. -/
theorem faultsArePrecise : Obligations.FaultsArePrecise := by
  intro s t k c x y hx ht hy herr
  have hcurrent : State.current { s with sel := k } = some x := hx
  obtain ⟨e, rfl⟩ : ∃ e, t = State.raise { s with sel := k } x e := by
    rcases issue_next_cases ht with ⟨i, -, hi⟩ | ⟨-, x', -, hx', rfl⟩
    · exact raised_of_err_ne_ok hcurrent hi (by rwa [State.current, exec_sel hi]) herr
    · obtain rfl : x = x' := Option.some.inj (hx.symm.trans hx')
      exact ⟨_, rfl⟩
  have hy' := State.current_raise hcurrent e
  rw [State.current, State.raise_sel] at hy'
  obtain rfl : y = { x with err := e } := Option.some.inj (hy.symm.trans hy')
  exact State.raise_eq _ x e

/-! ### The fault that is reported (R252) -/

/-- The checks of a command report `e` exactly when `e`'s condition holds and no condition of a smaller code does. -/
theorem firstFault_checksOf_eq_some_iff {i : Instr} {s : State} {x : Instance} {e : ErrCode} :
    firstFault (checksOf i s x) = some e ↔
      CheckFails s x i e ∧ ∀ e' : ErrCode, e'.code.toNat < e.code.toNat → ¬CheckFails s x i e' := by
  refine ⟨checksOf_some, fun ⟨he, hfirst⟩ => ?_⟩
  cases hc : firstFault (checksOf i s x) with
  | none => exact absurd he (checksOf_none hc e)
  | some d =>
    obtain ⟨hd, hdfirst⟩ := checksOf_some hc
    rcases Nat.lt_trichotomy d.code.toNat e.code.toNat with h | h | h
    · exact absurd hd (hfirst d h)
    · rw [ErrCode.eq_of_code h]
    · exact absurd he (hdfirst e h)

/-- A command reports the first condition that holds, and if that is not `E_SELFTEST`'s does nothing else. -/
theorem exec_reports {i : Instr} {s : State} {x : Instance} {e : ErrCode} (hx : s.current = some x)
    (he : CheckFails s x i e) (hfirst : ∀ e' : ErrCode, e'.code.toNat < e.code.toNat → ¬CheckFails s x i e')
    (hself : e ≠ .selftest) : exec i s = .next (s.put { x with err := e }) :=
  exec_raises_put hx (firstFault_checksOf_eq_some_iff.mpr ⟨he, hfirst⟩) hself

theorem issueFails_of_ok {s : State} {x : Instance} {c : Word} {i : Instr} (h : decode c = .ok i) (e : ErrCode) :
    IssueFails s x c e ↔ CheckFails s x i e := by
  simp only [IssueFails, h]

theorem issueFails_of_error {s : State} {x : Instance} {c : Word} {r : IllegalCommand} (h : decode c = .error r)
    (e : ErrCode) : IssueFails s x c e ↔ e = .illegalCmd := by
  simp only [IssueFails, h]

/-- Settles O17: a command's checks report the first condition of `CheckFails`, and an illegal word has the condition
of `E_ILLEGAL_CMD` alone. -/
theorem theFirstFailingCheckIsReported : Obligations.TheFirstFailingCheckIsReported := by
  refine ⟨fun s k x c e hx he hfirst => ?_, fun s k x c hx hnone => ?_⟩
  · cases hc : decode c with
    | ok i =>
      simp only [issueFails_of_ok hc] at he hfirst
      rw [issue_of_decode hc]
      exact exec_raises (s := { s with sel := k }) hx (firstFault_checksOf_eq_some_iff.mpr ⟨he, hfirst⟩)
    | error r =>
      obtain rfl := (issueFails_of_error hc e).mp he
      exact issue_of_illegal hc hx
  · cases hc : decode c with
    | ok i =>
      simp only [issueFails_of_ok hc] at hnone
      have hexec := exec_completes (i := i) (s := { s with sel := k }) hx (checksOf_pass hnone)
      have hk : k < s.insts.length := (List.getElem?_eq_some_iff.mp hx).1
      exact ⟨i, _, { instOf i { s with sel := k } x with err := .ok }, rfl, issue_of_decode hc,
        (issue_of_decode hc).trans hexec, by simp [hk], rfl⟩
    | error r => exact absurd ((issueFails_of_error hc _).mpr rfl) (hnone .illegalCmd)

/-! ### The causes one by one (R255 to R258, R264) -/

/-- Settles O7: a word that no command encodes to does not decode, and the decoder comes before every check. -/
theorem illegalWordFaultsBeforeCfgIsLookedAt : Obligations.IllegalWordFaultsBeforeCfgIsLookedAt := by
  intro s k x c hx hne
  cases hc : decode c with
  | ok i => exact absurd (decode_eq_ok_iff.mp hc).symm (hne i)
  | error r => exact (issue_of_illegal hc hx).trans (congrArg _ (State.raise_eq_put _ x nofun))

/-- On a dead engine every command reports `E_DEAD` and does nothing (R256). -/
theorem exec_dead (i : Instr) {s : State} {x : Instance} (hx : s.current = some x) (hd : s.cfg.dead = true) :
    exec i s = .next (s.put { x with err := .dead }) := by
  refine exec_reports hx hd (fun e he => ?_) nofun
  cases e with
  | ok | illegalCmd => exact id
  | _ => exact absurd he (by decide)

/-- Settles O22: with neither `DEAD` nor `VALID` set, `E_NOT_DISPATCHED` is the first condition that holds. -/
theorem nothingButDispatchRunsBeforeDispatch : Obligations.NothingButDispatchRunsBeforeDispatch := by
  intro i s x hi hx hd hv
  refine exec_reports hx ⟨hi, hv⟩ (fun e he => ?_) nofun
  cases e with
  | ok | illegalCmd => exact id
  | dead => simp [CheckFails, hd]
  | _ => exact absurd he (by decide)

/-- A D64-type command whose width bit is 0 reports it, on a ready engine (R258). -/
theorem exec_width_not_installed {i : Instr} {n : Nat} {s : State} {x : Instance} (hi : batchWidth i = some n)
    (hx : s.current = some x) (hr : s.Ready) (hn : s.cfg.installed n = false) :
    exec i s = .next (s.put { x with err := .widthUnavailable }) := by
  refine exec_reports hx ⟨n, hi, hn⟩ (fun e he => ?_) nofun
  cases e with
  | ok | illegalCmd => exact id
  | dead => simp [CheckFails, hr.alive]
  | notDispatched => simp [CheckFails, hr.valid]
  | _ => exact absurd he (by decide)

/-- The width check fails only after a DISPATCH and only for a command whose width is not installed. -/
theorem width_not_installed_of_err {i : Instr} {s t : State} {y : Instance} (ht : exec i s = .next t)
    (hy : t.current = some y) (herr : y.err = .widthUnavailable) :
    (∃ n, batchWidth i = some n ∧ s.cfg.installed n = false) ∧ ¬(i ≠ .dispatch ∧ s.cfg.valid = false) := by
  obtain ⟨x, hx, ⟨e, hc, rfl⟩ | ⟨-, rfl⟩⟩ := exec_next_cases ht
  · rw [State.current_raise hx e] at hy
    cases hy
    obtain rfl : e = .widthUnavailable := herr
    obtain ⟨hwidth, hfirst⟩ := firstFault_checksOf_eq_some_iff.mp hc
    exact ⟨hwidth, hfirst .notDispatched (by decide)⟩
  · rw [current_of_set hx (effectOf_insts i s x) (effectOf_sel i s x)] at hy
    cases hy
    cases herr

/-- Settles O23: SHA256D64 has no batch width, and D64's width bit is `VALID`, whose check comes first. -/
theorem widthNotInstalledFaults : Obligations.WidthNotInstalledFaults := by
  refine ⟨fun i n s x hi hx hr hn => ?_, fun i s t y hi hw1 ht hy herr => ?_⟩
  · have hwidth : batchWidth i = some n := by
      simp only [List.mem_cons, List.not_mem_nil, or_false, Prod.mk.injEq] at hi
      rcases hi with ⟨rfl, rfl⟩ | ⟨rfl, rfl⟩ | ⟨rfl, rfl⟩ <;> rfl
    exact exec_width_not_installed hwidth hx hr hn
  · obtain ⟨⟨n, hwidth, hn⟩, hdispatched⟩ := width_not_installed_of_err ht hy herr
    rcases hi with rfl | rfl
    · obtain rfl : 1 = n := Option.some.inj hwidth
      exact hdispatched ⟨nofun, hw1.symm.trans hn⟩
    · cases hwidth

/-- H_WRITE refuses a total of `2^61` bytes or more, when its other checks pass (R264). -/
theorem exec_hWrite_too_long {s : State} {x : Instance} (hx : s.current = some x) (hr : s.Ready)
    (hst : x.hst ≠ .finalized) (hsrc : Admitted s.params x.src) (hlen : 2 ^ 61 ≤ x.total.toNat + x.srcLen) :
    exec .hWrite s = .next (s.put { x with err := .tooLong }) := by
  have hc : firstFault (checksOf .hWrite s x) = some .tooLong := by
    simpa [checksOf, hWriteChecks, readyChecks_pass hr, beq_false_of_ne hst, bufferChecks_pass hsrc, firstFault_cons]
      using hlen
  exact exec_raises_put hx hc nofun

/-- Settles O56: the refused H_WRITE leaves all that H_FINALIZE's checks look at; below `2^61` H_WRITE completes. -/
theorem tooLongMessageIsRefusedExactly : Obligations.TooLongMessageIsRefusedExactly := by
  refine fun s x hx hr hst hsrc => ⟨fun hlen => ⟨exec_hWrite_too_long hx hr hst hsrc hlen, fun hdstLen hdst => ?_⟩,
    fun hlen => ?_⟩
  · have hx' := State.current_put hx { x with err := .tooLong }
    exact ⟨_, _, exec_hFinalize hx' (hr.put _) hst hdstLen hdst, current_of_set hx' rfl rfl, rfl⟩
  · exact ⟨_, _, exec_hWrite hx hr hst hsrc hlen, State.current_put hx _, rfl, written_total_toNat s.mem hlen⟩

/-! ### When the configuration changes (R302) -/

/-- `t` has the configuration and the table of `s`. -/
structure State.SameConfig (s t : State) : Prop where
  cfg_eq : t.cfg = s.cfg
  abt_eq : t.abt = s.abt

/-- From `s`, not yet dispatched and not dead, a DISPATCH has published a configuration or has failed in `t`. -/
structure State.Dispatched (s t : State) : Prop where
  not_valid : s.cfg.valid = false
  alive : s.cfg.dead = false
  decided : t.cfg.valid = true ∨ t.cfg.dead = true

/-- A fault changes the configuration only as the first DISPATCH's failed Self-Test (R254, R265). -/
theorem raise_config {i : Instr} {s : State} {x : Instance} {e : ErrCode}
    (hc : firstFault (checksOf i s x) = some e) :
    s.SameConfig (s.raise x e) ∨ (i = .dispatch ∧ s.Dispatched (s.raise x e)) := by
  by_cases he : e = .selftest
  · subst he
    obtain ⟨⟨hi, hvalid, -⟩, hfirst⟩ := checksOf_some hc
    have halive : s.cfg.dead = false := Bool.eq_false_of_not_eq_true (hfirst .dead (by decide))
    exact .inr ⟨hi, hvalid, halive, .inr (by rw [State.raise_cfg, if_pos rfl])⟩
  · exact .inl ⟨by rw [State.raise_cfg, if_neg he], s.raise_abt x e⟩

/-- A command that completes changes the configuration only as the first DISPATCH (R202, R203). -/
theorem effectOf_config {i : Instr} {s : State} {x : Instance} (hc : firstFault (checksOf i s x) = none) :
    s.SameConfig (effectOf i s x) ∨ (i = .dispatch ∧ s.Dispatched (effectOf i s x)) := by
  by_cases hi : i = .dispatch
  · subst hi
    rw [effectOf]
    cases hv : s.cfg.valid with
    | true => rw [dispatchEffect_of_valid x hv]; exact .inl ⟨rfl, rfl⟩
    | false =>
      have halive : s.cfg.dead = false := Bool.eq_false_of_not_eq_true (checksOf_none hc .dead)
      rw [dispatchEffect_of_not_valid x hv]
      exact .inr ⟨rfl, hv, halive, .inl rfl⟩
  · exact .inl ⟨effectOf_cfg_of_ne s x hi, effectOf_abt_of_ne s x hi⟩

/-- A command changes the configuration only if it is the first DISPATCH, failed or completed. -/
theorem exec_config {i : Instr} {s t : State} (ht : exec i s = .next t) :
    s.SameConfig t ∨ (i = .dispatch ∧ s.Dispatched t) := by
  obtain ⟨x, -, ⟨e, hc, rfl⟩ | ⟨hc, rfl⟩⟩ := exec_next_cases ht
  · exact raise_config hc
  · exact effectOf_config hc

/-- Issuing a word changes the configuration only if it is DISPATCH's word. -/
theorem issue_config {s t : State} {k : Nat} {c : Word} (ht : s.issue k c = .next t) :
    s.SameConfig t ∨ (c = encode .dispatch ∧ s.Dispatched t) := by
  rcases issue_next_cases ht with ⟨i, hdecode, hi⟩ | ⟨_, x, _, _, rfl⟩
  · rcases exec_config hi with ⟨hcfg, habt⟩ | ⟨rfl, hvalid, halive, hdecided⟩
    · exact .inl ⟨hcfg, habt⟩
    · exact .inr ⟨(decode_eq_ok_iff.mp hdecode).symm, hvalid, halive, hdecided⟩
  · exact .inl ⟨State.raise_cfg .., State.raise_abt ..⟩

/-- A host action changes the configuration only if it is hardware reset or writes DISPATCH's word to `CMD`. -/
theorem act_config {s t : State} {a : HostAction} (ht : s.act a = .next t) :
    s.SameConfig t ∨ a = .hwReset ∨
      ((∃ agent k, a = .wr agent k 15 (encode .dispatch).toNat) ∧ s.Dispatched t) := by
  rcases act_next_cases ht with ⟨agent, k, v, _, rfl, _, _, hv, hissue⟩ |
    ⟨_, _, _, _, _, _, _, _, _, _, _, _, _, _, rfl⟩ | ⟨_, _, _, _, _, _, _, _, rfl⟩ | ⟨_, _, _, _, rfl⟩ |
    ⟨_, _, _, _, rfl⟩ | ⟨rfl, _⟩
  · rcases issue_config hissue with ⟨hcfg, habt⟩ | ⟨hword, hvalid, halive, hdecided⟩
    · exact .inl ⟨hcfg, habt⟩
    · have hnum : v = (encode .dispatch).toNat := by
        rw [← hword, BitVec.toNat_ofNat, Nat.mod_eq_of_lt hv]
      exact .inr (.inr ⟨⟨agent, k, by rw [hnum]⟩, hvalid, halive, hdecided⟩)
  · exact .inl ⟨rfl, rfl⟩
  · exact .inl ⟨rfl, rfl⟩
  · exact .inl ⟨rfl, rfl⟩
  · exact .inl ⟨rfl, rfl⟩
  · exact .inr (.inl rfl)

/-- Settles O16: the step performs the next host action, and only two kinds of action touch the configuration. -/
theorem configurationIsWrittenOnce : Obligations.ConfigurationIsWrittenOnce := by
  intro s t ht hchange
  have hne : ¬s.SameConfig t := fun hsame => hchange.elim (· hsame.cfg_eq) (· hsame.abt_eq)
  cases hs : s.script with
  | nil => rw [step_of_script_nil hs] at ht; cases ht; exact absurd ⟨rfl, rfl⟩ hne
  | cons a rest =>
    rw [step_of_script_cons hs] at ht
    rcases act_config ht with ⟨hcfg, habt⟩ | rfl | ⟨⟨agent, k, rfl⟩, hvalid, halive, hdecided⟩
    · exact absurd ⟨hcfg, habt⟩ hne
    · exact .inl ⟨rest, rfl⟩
    · exact .inr ⟨hvalid, halive, hdecided, agent, k, rest, rfl⟩

/-! ### The dead engine (R256, R265) -/

/-- Settles O21: every command reports `E_DEAD`, a step that changed `CFG` would have found `DEAD` clear, and the host's
register accesses do not look at `CFG.DEAD`. -/
theorem deadEngineFaultsEveryCommand : Obligations.DeadEngineFaultsEveryCommand := by
  refine ⟨fun i s k x hx hd => ?_, fun s t hd hreset ht => ?_, fun s rest hs => ⟨_, step_hwReset hs, rfl, rfl⟩,
    fun s agent k n rest x _ hx => ⟨fun hs hn => ?_, fun v hs hn hv hw => ?_⟩⟩
  · rw [issue_of_decode (decode_eq_ok_iff.mpr rfl)]
    exact exec_dead i (s := { s with sel := k }) hx hd
  · by_contra hdead
    have hchange : t.cfg ≠ s.cfg := fun hcfg => hdead (hcfg ▸ hd)
    rcases configurationIsWrittenOnce s t ht (.inl hchange) with ⟨rest, hs⟩ | ⟨_, halive, _⟩
    · exact hreset rest hs
    · exact Bool.false_ne_true (halive.symm.trans hd)
  · have hvalue := (readHostReg_eq_getElem s.cfg x n).trans (List.getElem?_eq_getElem (by simp; omega))
    exact ⟨_, hvalue, (step_rd hs hx).trans (readReg_of_value hvalue)⟩
  · obtain ⟨y, hstep, hread, _⟩ := hostWriteReplacesOneRegister s agent k n v rest x hs hx hw hn hv
    exact ⟨y, hstep, hread⟩

/-- Settles O44: `E_SELFTEST` is the first check that fails, and the engine it leaves is dead. -/
theorem failedSelfTestKillsTheEngine : Obligations.FailedSelfTestKillsTheEngine := by
  intro s x hx hd hv hok
  have hc : firstFault (checksOf .dispatch s x) = some .selftest := by
    simp [checksOf, dispatchChecks, selfTest, hd, hv, hok]
  refine ⟨_, exec_raises hx hc, State.raise_eq s x .selftest, fun i k y hy => ?_⟩
  refine exec_dead i (s := { s.raise x .selftest with sel := k }) hy ?_
  rw [State.raise_cfg, if_pos rfl]

end Sys2Proof.Machine
end
